-- ==== Sys2Proof/Word.lean ====
section
/-! DEFINITION. The two widths of the hardware (00_scope.md rule R4): 8-bit data, 16-bit addresses.
Their arithmetic is `BitVec`'s, which wraps: `add8` and `add16` of rule R6 are `+` at these types
(40_fetch_dispatch.md rule R65). -/

namespace Sys2Proof

/-- A register A, X, Y, the status word P, or one memory cell (`XLEN_DATA`, R4). -/
abbrev Byte := BitVec 8

/-- The program counter or an address (`XLEN_ADDR`, R4). -/
abbrev Word := BitVec 16

end Sys2Proof
end

