-- ==== Sys2Proof/Config.lean ====
section
/-! DEFINITION. The parameters of 00_scope.md rule R4, the addressing-mode tags (30_encoding.md rule
R54), and the shape of one row of the opcode metadata table (R55). All are constants of the hardware,
not state (10_state.md rule R23). -/

namespace Sys2Proof

/-- The addressing-mode tags, "closed enumeration", no payload (30_encoding.md rule R54). -/
inductive AddrMode where
  | immediate
  | zeroPage
  | zeroPageX
  | zeroPageY
  | absolute
  | absoluteX
  | absoluteY
  | indirectX
  | indirectY
  | none
  deriving DecidableEq, Repr

/-- The five mnemonic tags (30_encoding.md rule R49). -/
inductive Mnemonic where
  | brk
  | tax
  | inx
  | lda
  | sta
  deriving DecidableEq, Repr

/-- One row of the opcode metadata table, "immutable record" (30_encoding.md rule R55). -/
structure Descriptor where
  code : Byte
  mnemonic : Mnemonic
  /-- byte count including the opcode -/
  length : Nat
  /-- PRESUMED (log 9): general knowledge by the spec's own mark; read by no rule (R129, R130). -/
  cycles : Nat
  mode : AddrMode
  deriving DecidableEq, Repr

namespace Config

/-- `MEM_SIZE`: number of memory cells (R4). -/
def memSize : Nat := 0x10000

/-- What a cell that nothing has written since power-on reads as (R24, R27; log 5). -/
def unwritten : Byte := 0x00

/-- `PROGRAM_ORIGIN`: where `load` puts the image (R4). -/
def programOrigin : Word := 0x8000

/-- `PROGRAM_MAX_LEN`: longest image `load` accepts (R4). -/
def programMaxLen : Nat := 0x8000

/-- `RESET_VECTOR`: address of the reset vector's low byte (R4). -/
def resetVector : Word := 0xFFFC

/-- `INDY_ZP_WRAP` (R4, D4, C8; log 8): DESIGN CHOICE of the spec. The resolver takes it as an
argument, and no step reads it. -/
def indyZpWrap : Bool := true

end Config

end Sys2Proof
end

