-- ==== Sys2Proof/Syntax.lean ====
section
/-! DEFINITION. The instructions: one constructor per row of spec/opcode_table.json (30_encoding.md
rule R49), with the operand the row's format gives it (R46, R47). -/

namespace Sys2Proof

/-- An instruction of the hardware with its operand. -/
inductive Instr where
  /-- 0x00, mode None (R89) -/
  | brk
  /-- 0xAA, mode None (R86) -/
  | tax
  /-- 0xE8, mode None (R87) -/
  | inx
  /-- 0xA9, mode Immediate: the datum `d8` (R80) -/
  | ldaImm (d8 : Byte)
  /-- 0xA5, mode ZeroPage: the zero-page address `d8` (R81) -/
  | ldaZp (d8 : Byte)
  /-- 0xAD, mode Absolute: the address `a16` (R82) -/
  | ldaAbs (a16 : Word)
  /-- 0x85, mode ZeroPage: the zero-page address `d8` (R83) -/
  | staZp (d8 : Byte)
  /-- 0x95, mode ZeroPage_X: the zero-page base `d8` (R84) -/
  | staZpX (d8 : Byte)
  deriving DecidableEq, Repr

end Sys2Proof
end

