-- ==== Sys2Proof/WellFormed.lean ====
section
/-! DEFINITION. What is well formed: an instruction term, the bytes of one instruction, a program
image for `load`, and the opcode metadata table. -/

namespace Sys2Proof

/-- Every instruction term is well formed: "Operand bytes have no illegal values: every `d8` and every
`a16` is legal for every opcode that takes one" (30_encoding.md rule R52), and the operand types hold
exactly those values. -/
def Instr.wellFormed : Instr → Bool
  | .brk => true
  | .tax => true
  | .inx => true
  | .ldaImm _ => true
  | .ldaZp _ => true
  | .ldaAbs _ => true
  | .staZp _ => true
  | .staZpX _ => true

/-- The bytes are exactly one instruction: byte 0 alone tells the length, and every other value of
byte 0 "is not an instruction" (30_encoding.md rule R48). Written apart from the decoder. -/
def wellFormedBytes : List Byte → Bool
  | [b] => b = 0x00 || b = 0xAA || b = 0xE8
  | [b, _] => b = 0xA9 || b = 0xA5 || b = 0x85 || b = 0x95
  | [b, _, _] => b = 0xAD
  | _ => false

/-- A program image that `load` accepts (70_reset_and_hazards.md rule R114). -/
def wellFormedImage (image : List Byte) : Bool := image.length ≤ Config.programMaxLen

/-- The number of operand bytes of each mode (41_addressing.md rule R79). -/
def AddrMode.operandBytes : AddrMode → Nat
  | .immediate => 1
  | .zeroPage => 1
  | .zeroPageX => 1
  | .zeroPageY => 1
  | .absolute => 2
  | .absoluteX => 2
  | .absoluteY => 2
  | .indirectX => 1
  | .indirectY => 1
  | .none => 0

/-- One row agrees with itself: its length is 1 plus the operand bytes of its mode (30_encoding.md
rules R45 and R55). -/
def Descriptor.wellFormed (d : Descriptor) : Bool := d.length = 1 + d.mode.operandBytes

/-- A metadata table: every row is well formed, and "table lookup is keyed by opcode byte only, which
must be unique" (30_encoding.md rule R49). -/
def wellFormedTable (rows : List Descriptor) : Bool :=
  rows.all Descriptor.wellFormed && decide (rows.map Descriptor.code).Nodup

end Sys2Proof
end

