-- ==== Sys2Proof/Decode.lean ====
section
/-! DEFINITION. Bytes to instructions and back (30_encoding.md rules R45 to R53), and the byte-order
helpers (20_memory.md rule R30). -/

namespace Sys2Proof

/-- `hi :: lo` is `hi * 256 + lo` (00_scope.md rule R5): the left operand in the more significant bits. -/
def concat16 (hi lo : Byte) : Word := BitVec.ofNat 16 (hi.toNat * 256 + lo.toNat)

/-- `w[7:0]` (R5). -/
def lowByte (w : Word) : Byte := BitVec.ofNat 8 (w.toNat % 256)

/-- `w[15:8]` (R5). -/
def highByte (w : Word) : Byte := BitVec.ofNat 8 (w.toNat / 256)

/-- The opcode bytes with a handler (30_encoding.md rule R49). -/
def opcodes : List Byte := [0x00, 0x85, 0x95, 0xA5, 0xA9, 0xAA, 0xAD, 0xE8]

/-- `b` is the opcode byte of an instruction; the other 248 bytes are illegal (R49, R51). -/
def isOpcode (b : Byte) : Bool := opcodes.contains b

/-- The switch on the whole opcode byte `op` (R50, R61); `d1` and `d2` are the two bytes that follow
it, of which an instruction takes as many as its format has (R46). -/
def decodeOp (op d1 d2 : Byte) : Option Instr :=
  if op = 0x00 then some .brk
  else if op = 0xAA then some .tax
  else if op = 0xE8 then some .inx
  else if op = 0xA9 then some (.ldaImm d1)
  else if op = 0xA5 then some (.ldaZp d1)
  else if op = 0xAD then some (.ldaAbs (concat16 d2 d1))
  else if op = 0x85 then some (.staZp d1)
  else if op = 0x95 then some (.staZpX d1)
  else none

/-- The addressing mode of an instruction, fixed with its opcode (R49, R54). -/
def Instr.mode : Instr → AddrMode
  | .brk => .none
  | .tax => .none
  | .inx => .none
  | .ldaImm _ => .immediate
  | .ldaZp _ => .zeroPage
  | .ldaAbs _ => .absolute
  | .staZp _ => .zeroPage
  | .staZpX _ => .zeroPageX

/-- The mnemonic of an instruction (R49). -/
def Instr.mnemonic : Instr → Mnemonic
  | .brk => .brk
  | .tax => .tax
  | .inx => .inx
  | .ldaImm _ => .lda
  | .ldaZp _ => .lda
  | .ldaAbs _ => .lda
  | .staZp _ => .sta
  | .staZpX _ => .sta

/-- The number of operand bytes of an instruction (R45, R48). -/
def Instr.operandCount : Instr → Nat
  | .brk => 0
  | .tax => 0
  | .inx => 0
  | .ldaImm _ => 1
  | .ldaZp _ => 1
  | .ldaAbs _ => 2
  | .staZp _ => 1
  | .staZpX _ => 1

/-- Why a list of bytes does not begin with an instruction. -/
inductive DecodeError where
  /-- there is no byte -/
  | noBytes
  /-- byte 0 is none of the eight opcodes (R51) -/
  | unsupportedOpcode (b : Byte)
  /-- byte 0 is an opcode and the list ends before its operand bytes do -/
  | truncated (b : Byte)
  deriving DecidableEq, Repr

/-- Decode the instruction at the head of a list of bytes, and give back the bytes after it. -/
def decode : List Byte → Except DecodeError (Instr × List Byte)
  | [] => .error .noBytes
  | op :: rest =>
    match decodeOp op (rest.getD 0 0x00) (rest.getD 1 0x00) with
    | none => .error (.unsupportedOpcode op)
    | some i =>
      if i.operandCount ≤ rest.length then .ok (i, rest.drop i.operandCount)
      else .error (.truncated op)

/-- The bytes of an instruction at ascending addresses (R45, R46, R49), the low byte of a word operand
first (20_memory.md rule R30). -/
def encode : Instr → List Byte
  | .brk => [0x00]
  | .tax => [0xAA]
  | .inx => [0xE8]
  | .ldaImm d8 => [0xA9, d8]
  | .ldaZp d8 => [0xA5, d8]
  | .ldaAbs a16 => [0xAD, lowByte a16, highByte a16]
  | .staZp d8 => [0x85, d8]
  | .staZpX d8 => [0x95, d8]

/-- The opcode byte of an instruction (R49). -/
def Instr.opcode : Instr → Byte
  | .brk => 0x00
  | .tax => 0xAA
  | .inx => 0xE8
  | .ldaImm _ => 0xA9
  | .ldaZp _ => 0xA5
  | .ldaAbs _ => 0xAD
  | .staZp _ => 0x85
  | .staZpX _ => 0x95

/-- Byte `n` of an instruction read as one little-endian number (R46), bits from `nbits` up being 0. -/
def tableByte (nbits w n : Nat) : Byte := BitVec.ofNat 8 (w % 2 ^ nbits / 256 ^ n)

/-- The three bytes a table word stands for, in address order; three is the longest length (R45). -/
def tableBytes (nbits w : Nat) : List Byte :=
  [tableByte nbits w 0, tableByte nbits w 1, tableByte nbits w 2]

/-- What the decoder reads from a word of spec/opcode_table.json. -/
def decodeTableWord (nbits w : Nat) : Option Instr :=
  match decode (tableBytes nbits w) with
  | .ok (i, _) => some i
  | .error _ => none

end Sys2Proof
end

