-- ==== Sys2Proof/Machine/State.lean ====
section
/-! DEFINITION. The state of the core (10_state.md), the causes a step can stop with, and the power-on
and reset states. -/

namespace Sys2Proof.Machine

/-- The two synchronous exceptions of the core and the information each carries (60_exceptions.md
rules R94 to R96). No numeric code (D7). -/
inductive Cause where
  /-- the byte the fetch read has no handler (R95) -/
  | unsupportedOpcode (b : Byte)
  /-- the resolver was asked to resolve mode None (R96); produced by no step -/
  | invalidAddressingMode
  deriving DecidableEq, Repr

/-- The run state (10_state.md rule R20, D1). -/
inductive RunState where
  /-- not executing, since power-on or reset -/
  | stopped
  /-- one step per instruction -/
  | running
  /-- BRK was executed; terminal until reset -/
  | halted
  /-- a fault stopped the loop; until reset -/
  | faulted (c : Cause)
  deriving DecidableEq, Repr

/-- Memory as the cells that hold something other than what an unwritten cell reads as, by rising
address (20_memory.md rule R26; log 5). -/
abbrev Memory := List Host.Cell

/-- The whole state (10_state.md rules R19 to R24). -/
structure State where
  /-- accumulator (R10) -/
  a : Byte
  /-- index register X (R10) -/
  x : Byte
  /-- index register Y (R10, R12) -/
  y : Byte
  /-- status word: bit 1 is Z, bit 7 is N, the others are reserved (R16) -/
  p : Byte
  /-- program counter (R13) -/
  pc : Word
  /-- the 65536 cells (R21) -/
  mem : Memory
  /-- run state (R20) -/
  runState : RunState
  deriving DecidableEq, Repr

/-- Why `step` gives no next state. Each is the stuck state of one row of the table of
70_reset_and_hazards.md rule R120, in which the core's `Step` has no move (log 3). -/
inductive Fault where
  /-- Raised by `step` alone, in the run state Stopped: the core has not been started by `run`. Safe: the
  core takes no step there (R110, R120), so nothing is claimed of a step. -/
  | coreStopped
  /-- Raised by `step` alone, in the run state Halted: "`Halted` is terminal" (R20, R89). Safe, for the
  same reason. -/
  | coreHalted
  /-- Raised by `step` alone, in the run state Faulted: the core takes no further step (R98). Safe, for
  the same reason. -/
  | coreFaulted (c : Cause)
  deriving DecidableEq, Repr

/-- Why an operation has no meaning. -/
inductive Refusal where
  /-- An instruction that has no meaning yet, rejected by name in `exec`; no arm raises it now. Safe. -/
  | notModelled (mnemonic : String)
  /-- Raised by `hostMove` alone: the operation has no move in this run state (R120). Safe: a host that
  breaks its duty is outside the model (log 11). -/
  | hostNoMove
  /-- Raised by `hostMove` alone: `load` of more than 0x8000 bytes, refused as a whole with no state
  change (R114, D10; log 10). Safe. -/
  | imageTooLong (length : Nat)
  deriving DecidableEq, Repr

/-- Power-on: "constructed with all registers/flags/PC/memory zeroed", and Stopped
(70_reset_and_hazards.md rule R111, 10_state.md rule R24). -/
def State.powerOn : State where
  a := 0x00
  x := 0x00
  y := 0x00
  p := 0x00
  pc := 0x0000
  mem := []
  runState := .stopped

/-- The machine right after reset: the reset of 70_reset_and_hazards.md rule R112 on the power-on state
(R24; log 6). PC is the reset vector of a memory that nothing has written, 0x0000 (R113). -/
def State.reset : State where
  a := 0x00
  x := 0x00
  y := 0x00
  p := 0x00
  pc := 0x0000
  mem := []
  runState := .stopped

end Sys2Proof.Machine
end

