-- ==== Sys2Proof/Machine/Ops.lean ====
section
/-! DEFINITION. The named operations over memory and registers (00_scope.md rule R6, 20_memory.md rules
R27 to R29), and the one operation that takes an exception (60_exceptions.md rule R98). -/

namespace Sys2Proof.Machine

/-- The byte of cell `a`; an unlisted cell was never written, or holds what an unwritten one does. -/
def Memory.read : Memory → Nat → Byte
  | [], _ => Config.unwritten
  | (k, v) :: rest, a => if k = a then v else Memory.read rest a

/-- Replace the byte of cell `a`, keeping the addresses rising and listing no unwritten value. -/
def Memory.write : Memory → Nat → Byte → Memory
  | [], a, v => if v = Config.unwritten then [] else [(a, v)]
  | (k, w) :: rest, a, v =>
    if a < k then
      if v = Config.unwritten then (k, w) :: rest else (a, v) :: (k, w) :: rest
    else if a = k then
      if v = Config.unwritten then rest else (a, v) :: rest
    else (k, w) :: Memory.write rest a v

/-- The one canonical form of a memory: addresses strictly rising and inside the address space, no
entry equal to what an unlisted cell reads as. -/
abbrev Memory.wf (m : Memory) : Prop :=
  m.Pairwise (fun c d => c.1 < d.1) ∧ ∀ c ∈ m, c.1 < Config.memSize ∧ c.2 ≠ Config.unwritten

/-- `MemRead(addr, 1)` (20_memory.md rule R27). -/
def State.read8 (s : State) (addr : Word) : Byte := s.mem.read addr.toNat

/-- `MemWrite(addr, 1, v)` (R27). -/
def State.write8 (s : State) (addr : Word) (v : Byte) : State :=
  { s with mem := s.mem.write addr.toNat v }

/-- `MemRead(addr, 2)`: little-endian, the high byte's address wraps (R28; log 7). -/
def State.read16 (s : State) (addr : Word) : Word :=
  concat16 (s.read8 (addr + 1)) (s.read8 addr)

/-- `MemWrite(addr, 2, w)`: low byte, then high byte, whose address wraps (R29). -/
def State.write16 (s : State) (addr w : Word) : State :=
  (s.write8 addr (lowByte w)).write8 (addr + 1) (highByte w)

/-- `A <- v` (R6). -/
def State.setA (s : State) (v : Byte) : State := { s with a := v }

/-- `X <- v` (R6). -/
def State.setX (s : State) (v : Byte) : State := { s with x := v }

/-- `P <- v` (R6). -/
def State.setP (s : State) (v : Byte) : State := { s with p := v }

/-- `pc <- add16(PC, k)` (R6, R62). -/
def State.advancePc (s : State) (k : Word) : State := { s with pc := s.pc + k }

/-- `run_state <- r` (R6). -/
def State.setRun (s : State) (r : RunState) : State := { s with runState := r }

/-- `raise E`: the step ends at once, the run state becomes Faulted(E), nothing is saved and control goes
nowhere (60_exceptions.md rules R98 and R102). The only way back is the host's reset (R103). -/
def raise (c : Cause) (s : State) : State := s.setRun (.faulted c)

end Sys2Proof.Machine
end

