-- ==== Sys2Proof/Machine/Flags.lean ====
section
/-! DEFINITION. The flag generator `SetZN` (40_fetch_dispatch.md rule R63) and the two flags
(10_state.md rule R16). -/

namespace Sys2Proof.Machine

/-- `P.Z`, bit 1 (R16). -/
def State.flagZ (s : State) : Bool := s.p.getLsbD 1

/-- `P.N`, bit 7 (R16). -/
def State.flagN (s : State) : Bool := s.p.getLsbD 7

/-- The status word after `SetZN(v)` on the status word `p`: bits 1 and 7 rewritten from `v`, the other
six kept (R63, D14; log 14). -/
def flagsZN (v p : Byte) : Byte :=
  (p &&& 0x7D) ||| (if v = 0x00 then 0x02 else 0x00) ||| (v &&& 0x80)

/-- `SetZN(v)`, the sole mutator of Z and N (R17, R63). -/
def setZN (v : Byte) (s : State) : State := s.setP (flagsZN v s.p)

end Sys2Proof.Machine
end

