-- ==== Sys2Proof/Machine/Operands.lean ====
section
/-! DEFINITION. The addressing resolver (41_addressing.md): the effective address of each operand form,
and `Resolve(mode)` at the current PC for all ten modes. -/

namespace Sys2Proof.Machine

/-- `zext_16(v)` (00_scope.md rule R6). -/
def zext16 (v : Byte) : Word := v.setWidth 16

/-- ZeroPage: the operand byte zero-extended (R70). -/
def eaZeroPage (d8 : Byte) : Word := zext16 d8

/-- ZeroPage_X and ZeroPage_Y: the index is added in 8 bits, so no carry reaches the high byte
(R71, R73). -/
def eaZeroPageIndexed (d8 index : Byte) : Word := zext16 (d8 + index)

/-- Absolute_X and Absolute_Y: the index is added in 16 bits (R74, R75). -/
def eaAbsoluteIndexed (a16 : Word) (index : Byte) : Word := a16 + zext16 index

/-- The address held at the zero-page pointer `ptr`, whose high byte is read from `ptr + 1` wrapped
inside the zero page (R76), or, where `wrap` is false, from the next address (R77). -/
def zeroPagePointer (wrap : Bool) (ptr : Byte) (s : State) : Word :=
  concat16
    (if wrap then s.read8 (zext16 (ptr + 1)) else s.read8 (zext16 ptr + 1))
    (s.read8 (zext16 ptr))

/-- Indirect_X: index first, then the pointer read, which wraps (R76). -/
def eaIndirectX (d8 index : Byte) (s : State) : Word := zeroPagePointer true (d8 + index) s

/-- Indirect_Y: pointer read first, then the index in 16 bits (R77). -/
def eaIndirectY (wrap : Bool) (d8 index : Byte) (s : State) : Word :=
  zeroPagePointer wrap d8 s + zext16 index

/-- `Resolve(mode)` with PC at the operand address (R68 to R78), for either value of the parameter
INDY_ZP_WRAP (D4). It writes nothing; mode None is its only failure. -/
def resolveWith (wrap : Bool) (mode : AddrMode) (s : State) : Except Cause Word :=
  match mode with
  | .immediate => .ok s.pc
  | .zeroPage => .ok (eaZeroPage (s.read8 s.pc))
  | .zeroPageX => .ok (eaZeroPageIndexed (s.read8 s.pc) s.x)
  | .zeroPageY => .ok (eaZeroPageIndexed (s.read8 s.pc) s.y)
  | .absolute => .ok (s.read16 s.pc)
  | .absoluteX => .ok (eaAbsoluteIndexed (s.read16 s.pc) s.x)
  | .absoluteY => .ok (eaAbsoluteIndexed (s.read16 s.pc) s.y)
  | .indirectX => .ok (eaIndirectX (s.read8 s.pc) s.x s)
  | .indirectY => .ok (eaIndirectY wrap (s.read8 s.pc) s.y s)
  | .none => .error .invalidAddressingMode

/-- `Resolve(mode)` of the hardware (R68). -/
def resolve (mode : AddrMode) (s : State) : Except Cause Word :=
  resolveWith Config.indyZpWrap mode s

end Sys2Proof.Machine
end

