-- ==== Sys2Proof/Machine/LoadStore.lean ====
section
/-! DEFINITION. LDA and STA (42_load_store.md). A meaning begins after the opcode fetch, so PC is the
operand address (log 1); the operand is the one the decoder read there (log 2). -/

namespace Sys2Proof.Machine

/-- The one load behaviour (R62, R85): A takes the byte, `SetZN` from the new A, then PC passes the `k`
operand bytes. -/
def loadA (v : Byte) (k : Word) (s : State) : State := (setZN v (s.setA v)).advancePc k

/-- The one store behaviour (R62, R85): the cell takes A, P is unchanged, then PC passes the `k` operand
bytes. -/
def storeA (ea k : Word) (s : State) : State := (s.write8 ea s.a).advancePc k

/-- LDA Immediate, 0xA9 (R80): the operand byte itself. -/
def execLdaImm (d8 : Byte) (s : State) : Host.Outcome State Fault Refusal :=
  .next (loadA d8 1 s)

/-- LDA ZeroPage, 0xA5 (R81). -/
def execLdaZp (d8 : Byte) (s : State) : Host.Outcome State Fault Refusal :=
  .next (loadA (s.read8 (eaZeroPage d8)) 1 s)

/-- LDA Absolute, 0xAD (R82). -/
def execLdaAbs (a16 : Word) (s : State) : Host.Outcome State Fault Refusal :=
  .next (loadA (s.read8 a16) 2 s)

/-- STA ZeroPage, 0x85 (R83). -/
def execStaZp (d8 : Byte) (s : State) : Host.Outcome State Fault Refusal :=
  .next (storeA (eaZeroPage d8) 1 s)

/-- STA ZeroPage_X, 0x95 (R84). -/
def execStaZpX (d8 : Byte) (s : State) : Host.Outcome State Fault Refusal :=
  .next (storeA (eaZeroPageIndexed d8 s.x) 1 s)

end Sys2Proof.Machine
end

