-- ==== Sys2Proof/Machine/RegisterOps.lean ====
section
/-! DEFINITION. TAX and INX (43_register_ops.md). PC is not advanced further than the fetch did. -/

namespace Sys2Proof.Machine

/-- Write X and call `SetZN` on the new X: what TAX and INX share (R88). -/
def writeX (v : Byte) (s : State) : State := setZN v (s.setX v)

/-- TAX, 0xAA (R86): X takes A. -/
def execTax (s : State) : Host.Outcome State Fault Refusal := .next (writeX s.a s)

/-- INX, 0xE8 (R87): X takes X + 1 modulo 256. -/
def execInx (s : State) : Host.Outcome State Fault Refusal := .next (writeX (s.x + 1) s)

end Sys2Proof.Machine
end

