-- ==== Sys2Proof/Machine/System.lean ====
section
/-! DEFINITION. BRK (44_system.md). -/

namespace Sys2Proof.Machine

/-- BRK, 0x00 (R89): the run state becomes Halted and nothing else changes. It is not a fault, pushes
nothing and reads no vector. -/
def execBrk (s : State) : Host.Outcome State Fault Refusal := .next (s.setRun .halted)

end Sys2Proof.Machine
end

