-- ==== Sys2Proof/Machine/Fetch.lean ====
section
/-! DEFINITION. The fetch unit (40_fetch_dispatch.md rules R59 to R61): the bytes at PC, the
instruction they are, the advance past the opcode byte, and the fault of an illegal byte. -/

namespace Sys2Proof.Machine

/-- The opcode byte at PC and the two bytes after it, the addresses wrapping (10_state.md rule R15). The
hardware reads only the bytes the instruction has (R60); the others are read without effect (R34; log 2). -/
def codeBytes (s : State) : List Byte :=
  [s.read8 s.pc, s.read8 (s.pc + 1), s.read8 (s.pc + 2)]

/-- The instruction at PC, or none where the opcode byte is illegal (R61). -/
def fetchInstr (s : State) : Option Instr :=
  match decode (codeBytes s) with
  | .ok (i, _) => some i
  | .error _ => none

/-- After the fetch PC is the operand address (R60). -/
def afterFetch (s : State) : State := s.advancePc 1

/-- `raise UnsupportedOpcode(b)` with `b` the byte at PC, after the fetch has advanced PC
(60_exceptions.md rules R95, R97, R98; log 4). -/
def unsupportedOpcode (s : State) : State := raise (.unsupportedOpcode (s.read8 s.pc)) (afterFetch s)

/-- Store the bytes of a table word at PC upward and put the core in Running, so that the next step
fetches and runs them. -/
def placeCode (s : State) (bytes : List Byte) : State :=
  let s1 := s.write8 s.pc (bytes.getD 0 0x00)
  let s2 := s1.write8 (s.pc + 1) (bytes.getD 1 0x00)
  (s2.write8 (s.pc + 2) (bytes.getD 2 0x00)).setRun .running

end Sys2Proof.Machine
end

