-- ==== Sys2Proof/Machine/Step.lean ====
section
/-! DEFINITION. One step of the core (40_fetch_dispatch.md rule R59). -/

namespace Sys2Proof.Machine

/-- While Running: fetch, advance past the opcode byte, run the instruction, or fault on an illegal
byte, which is a next state too (R59). In the other run states the core has no move
(70_reset_and_hazards.md rule R120; log 3). -/
def step (s : State) : Host.Outcome State Fault Refusal :=
  match s.runState with
  | .running =>
    match fetchInstr s with
    | some i => exec i (afterFetch s)
    | none => .next (unsupportedOpcode s)
  | .stopped => .fault .coreStopped
  | .halted => .fault .coreHalted
  | .faulted c => .fault (.coreFaulted c)

/-- `s` with the instruction of a table word at PC and the core Running: what the host's `mem_write` at
PC and `run` do (70_reset_and_hazards.md rules R116 and R119; log 3). -/
def State.withFetchWord (s : State) (nbits w : Nat) : State := placeCode s (tableBytes nbits w)

end Sys2Proof.Machine
end

