-- ==== Sys2Proof/Machine/OpcodeTable.lean ====
section
/-! DEFINITION. The opcode metadata table and its query (30_encoding.md rules R55 and R56). It is a
constant "consulted by tooling, not required by the dispatch loop": no step reads it. -/

namespace Sys2Proof.Machine

/-- The eight rows of R55. The cycle counts are PRESUMED (log 9). -/
def opcodeTable : List Descriptor :=
  [ { code := 0x00, mnemonic := .brk, length := 1, cycles := 7, mode := .none },
    { code := 0xAA, mnemonic := .tax, length := 1, cycles := 2, mode := .none },
    { code := 0xE8, mnemonic := .inx, length := 1, cycles := 2, mode := .none },
    { code := 0xA9, mnemonic := .lda, length := 2, cycles := 2, mode := .immediate },
    { code := 0xA5, mnemonic := .lda, length := 2, cycles := 3, mode := .zeroPage },
    { code := 0xAD, mnemonic := .lda, length := 3, cycles := 4, mode := .absolute },
    { code := 0x85, mnemonic := .sta, length := 2, cycles := 3, mode := .zeroPage },
    { code := 0x95, mnemonic := .sta, length := 2, cycles := 4, mode := .zeroPageX } ]

/-- `lookup(opcode_byte) -> Option<OpCodeDescriptor>` (R56). -/
def lookup (b : Byte) : Option Descriptor := opcodeTable.find? (fun d => d.code == b)

end Sys2Proof.Machine
end

