-- ==== Sys2Proof/Machine/Pseudocode.lean ====
section
/-! DEFINITION. The step written as the spec's pseudocode has it: fetch one byte, switch on it, and let
each handler call `Resolve(mode)`, which reads the operand bytes from memory at execute time
(30_encoding.md rule R47, 40_fetch_dispatch.md rules R59 and R62, and the instruction rules R80 to R89).
The clear version that `step` is to equal; nothing here uses the decoder. -/

namespace Sys2Proof.Machine

/-- R80, R81, R82: `ea <- Resolve(mode); A <- MemRead(ea, 1); SetZN(A); pc <- add16(PC, k)`. -/
def pseudoLda (mode : AddrMode) (k : Word) (s : State) : State :=
  match resolve mode s with
  | .error c => raise c s
  | .ok ea =>
    let s1 := { s with a := s.read8 ea }
    let s2 := setZN s1.a s1
    { s2 with pc := s2.pc + k }

/-- R83, R84: `ea <- Resolve(mode); MemWrite(ea, 1, A); pc <- add16(PC, k)`. -/
def pseudoSta (mode : AddrMode) (k : Word) (s : State) : State :=
  match resolve mode s with
  | .error c => raise c s
  | .ok ea =>
    let s1 := s.write8 ea s.a
    { s1 with pc := s1.pc + k }

/-- R86: `X <- A; SetZN(X)`. -/
def pseudoTax (s : State) : State :=
  let s1 := { s with x := s.a }
  setZN s1.x s1

/-- R87: `X <- add8(X, 1); SetZN(X)`. -/
def pseudoInx (s : State) : State :=
  let s1 := { s with x := s.x + 1 }
  setZN s1.x s1

/-- R89: `run_state <- Halted`. -/
def pseudoBrk (s : State) : State := { s with runState := .halted }

/-- The step of R59. -/
def pseudoStep (s : State) : State :=
  let b := s.read8 s.pc
  let s1 := { s with pc := s.pc + 1 }
  if b = 0x00 then pseudoBrk s1
  else if b = 0xAA then pseudoTax s1
  else if b = 0xE8 then pseudoInx s1
  else if b = 0xA9 then pseudoLda .immediate 1 s1
  else if b = 0xA5 then pseudoLda .zeroPage 1 s1
  else if b = 0xAD then pseudoLda .absolute 2 s1
  else if b = 0x85 then pseudoSta .zeroPage 1 s1
  else if b = 0x95 then pseudoSta .zeroPageX 1 s1
  else raise (.unsupportedOpcode b) s1

end Sys2Proof.Machine
end

