-- ==== Sys2Proof/Machine/HostOps.lean ====
section
/-! DEFINITION. The host interface (70_reset_and_hazards.md rules R111 to R121): the host's moves and
queries, which of them is allowed in which run state, and what `run` returns. -/

namespace Sys2Proof.Machine

/-- The operations of the host that change the core (R112, R114, R116, R117, R119). -/
inductive HostMove where
  | load (image : List Byte)
  | reset
  | run
  | loadAndRun (image : List Byte)
  | memWrite (addr : Word) (v : Byte)
  deriving DecidableEq, Repr

/-- The accessors of the host: they change nothing (R118, R119). -/
inductive HostQuery where
  | registerA
  | registerX
  | registerY
  | status
  | programCounter
  | memRead (addr : Word)
  deriving DecidableEq, Repr

/-- The value an accessor returns. -/
inductive HostReply where
  | byte (v : Byte)
  | word (v : Word)
  deriving DecidableEq, Repr

/-- What `run` returns once the run has ended (R93, R116). -/
inductive RunReturn where
  | normal
  | error (c : Cause)
  deriving DecidableEq, Repr

/-- Write bytes at ascending addresses (R114). -/
def writeBytes : State → Word → List Byte → State
  | s, _, [] => s
  | s, addr, b :: rest => writeBytes (s.write8 addr b) (addr + 1) rest

/-- The accepted `load`: the image at the origin, then the origin as the reset vector, which therefore
wins where they overlap (R114, R115). No register and not the run state. -/
def loadImage (image : List Byte) (s : State) : State :=
  (writeBytes s Config.programOrigin image).write16 Config.resetVector Config.programOrigin

/-- `reset` (R112): A, X and P are zeroed, PC comes from the reset vector, the run state is Stopped; Y
and memory are not written. -/
def resetCore (s : State) : State :=
  { s with
    a := 0x00, x := 0x00, p := 0x00,
    pc := s.read16 Config.resetVector, runState := .stopped }

/-- The entry of `run` (R116): it writes nothing but the run state. The steps that follow are the
core's. -/
def enterRun (s : State) : State := s.setRun .running

/-- The table of R120: which move the host has in which run state. `loadAndRun` begins with `load` and
has a move where `load` has one (R117). -/
def hostHasMove : RunState → HostMove → Bool
  | .stopped, .load _ => true
  | .stopped, .reset => true
  | .stopped, .run => true
  | .stopped, .loadAndRun _ => true
  | .stopped, .memWrite _ _ => true
  | .running, .load _ => false
  | .running, .reset => false
  | .running, .run => false
  | .running, .loadAndRun _ => false
  | .running, .memWrite _ _ => false
  | .halted, .load _ => true
  | .halted, .reset => true
  | .halted, .run => false
  | .halted, .loadAndRun _ => true
  | .halted, .memWrite _ _ => true
  | .faulted _, .load _ => true
  | .faulted _, .reset => true
  | .faulted _, .run => false
  | .faulted _, .loadAndRun _ => true
  | .faulted _, .memWrite _ _ => true

/-- The effect of a move the host has; a too long image is refused whole (R114, D10; log 10).
`loadAndRun` is `load`, `reset`, `run` in that order, and leaves the core at its first step (R117, R125;
log 13). -/
def hostEffect (mv : HostMove) (s : State) : Host.Outcome State Fault Refusal :=
  match mv with
  | .load image =>
    if wellFormedImage image then .next (loadImage image s)
    else .refused (.imageTooLong image.length)
  | .reset => .next (resetCore s)
  | .run => .next (enterRun s)
  | .loadAndRun image =>
    if wellFormedImage image then .next (enterRun (resetCore (loadImage image s)))
    else .refused (.imageTooLong image.length)
  | .memWrite addr v => .next (s.write8 addr v)

/-- One move of the host (R120; log 11). -/
def hostMove (mv : HostMove) (s : State) : Host.Outcome State Fault Refusal :=
  if hostHasMove s.runState mv then hostEffect mv s else .refused .hostNoMove

/-- An accessor's value, none while Running, where it has no move (R118, R119, R120). -/
def hostQuery (q : HostQuery) (s : State) : Option HostReply :=
  if s.runState = .running then none
  else
    match q with
    | .registerA => some (.byte s.a)
    | .registerX => some (.byte s.x)
    | .registerY => some (.byte s.y)
    | .status => some (.byte s.p)
    | .programCounter => some (.word s.pc)
    | .memRead addr => some (.byte (s.read8 addr))

/-- What `run` returns in the state in which the run has ended; none where no run has (R93, R116, R121). -/
def runReturn (s : State) : Option RunReturn :=
  match s.runState with
  | .stopped => none
  | .running => none
  | .halted => some .normal
  | .faulted c => some (.error c)

end Sys2Proof.Machine
end

