-- ==== Sys2Proof/Machine/Run.lean ====
section
/-! DEFINITION. Runs: the loop of 40_fetch_dispatch.md rule R66, and the moves of the two agents
(00_scope.md rule R9, 70_reset_and_hazards.md rule R120). -/

namespace Sys2Proof.Machine

/-- At most `n` steps of the core, ending where it has no move. A run has no bound of its own (R66, R122),
so the count is the observer's, not the machine's (log 13). -/
def coreRun : Nat → State → State
  | 0, s => s
  | n + 1, s =>
    match step s with
    | .next t => coreRun n t
    | .fault _ => s
    | .refused _ => s

/-- A move of either agent: one step of the core, or one operation of the host (R120). -/
inductive Move where
  | core
  | host (mv : HostMove)
  deriving DecidableEq, Repr

/-- The move's outcome. -/
def move (m : Move) (s : State) : Host.Outcome State Fault Refusal :=
  match m with
  | .core => step s
  | .host mv => hostMove mv s

end Sys2Proof.Machine
end

