-- ==== Sys2Proof/Safety.lean ====
section
/-! DEFINITION. What claims are stated in: the end of a run (70_reset_and_hazards.md rule R121), the
invariant of reachable states (10_state.md rules R18 and R25), reachability from power-on, and the
writers of memory (20_memory.md rule R44). -/

namespace Sys2Proof.Machine

/-- A run is over, successfully, exactly when the run state is Halted (R121). -/
abbrev State.finished (s : State) : Prop := s.runState = .halted

/-- `q` is what `SetZN(v)` leaves of the status word `p`: Z iff `v` is zero, N iff bit 7 of `v`, the other
six bits as they were (40_fetch_dispatch.md rule R63). -/
abbrev FlagsFrom (v p q : Byte) : Prop :=
  (q.getLsbD 1 = true ↔ v = 0x00) ∧ (q.getLsbD 7 = true ↔ 0x80 ≤ v.toNat) ∧
    ∀ i < 8, i ≠ 1 → i ≠ 7 → q.getLsbD i = p.getLsbD i

/-- From `s` to `t`, A took the byte `v` and the flags follow it, PC advanced by `k`, and X, Y, the run state
and every byte of memory are as before (42_load_store.md rule R85). -/
abbrev LoadsByte (v : Byte) (k : Word) (s t : State) : Prop :=
  t.a = v ∧ FlagsFrom v s.p t.p ∧ t.pc = s.pc + k ∧ t.x = s.x ∧ t.y = s.y ∧
    t.runState = s.runState ∧ ∀ b : Word, t.read8 b = s.read8 b

/-- From `s` to `t`, the cell `ea` took A, PC advanced by `k`, and A, X, Y, P, the run state and every other
byte of memory are as before (42_load_store.md rule R85). -/
abbrev StoresByte (ea k : Word) (s t : State) : Prop :=
  t.read8 ea = s.a ∧ (∀ b : Word, b ≠ ea → t.read8 b = s.read8 b) ∧ t.pc = s.pc + k ∧
    t.a = s.a ∧ t.x = s.x ∧ t.y = s.y ∧ t.p = s.p ∧ t.runState = s.runState

/-- From `s` to `t`, X took the byte `v` and the flags follow it, PC advanced by `k`, and A, Y, the run state
and every byte of memory are as before (43_register_ops.md rule R88). -/
abbrev WritesX (v : Byte) (k : Word) (s t : State) : Prop :=
  t.x = v ∧ FlagsFrom v s.p t.p ∧ t.pc = s.pc + k ∧ t.a = s.a ∧ t.y = s.y ∧
    t.runState = s.runState ∧ ∀ b : Word, t.read8 b = s.read8 b

/-- From `s` to `t`, A, X, Y, P and every byte of memory are as before. -/
abbrev SameData (s t : State) : Prop :=
  t.a = s.a ∧ t.x = s.x ∧ t.y = s.y ∧ t.p = s.p ∧ ∀ b : Word, t.read8 b = s.read8 b

/-- `a` is a cell that an accepted `load` of `len` bytes writes: the image or the vector (R114). -/
abbrev loadWrites (len : Nat) (a : Word) : Prop :=
  (0x8000 ≤ a.toNat ∧ a.toNat < 0x8000 + len) ∨ a = 0xFFFC ∨ a = 0xFFFD

/-- The cells of `t` as an accepted `load` of `image` leaves those of `s`: the image at 0x8000 upward but
for the two bytes of the vector, the vector 0x8000, low byte first, and every other cell as before
(70_reset_and_hazards.md rules R114 and R115). -/
abbrev HoldsImage (image : List Byte) (s t : State) : Prop :=
  (∀ i < image.length, ∀ a : Word, a.toNat = 0x8000 + i → a ≠ 0xFFFC → a ≠ 0xFFFD →
      t.read8 a = image.getD i 0x00) ∧
    t.read8 0xFFFC = 0x00 ∧ t.read8 0xFFFD = 0x80 ∧
    ∀ a : Word, ¬ loadWrites image.length a → t.read8 a = s.read8 a

/-- The reachable values of P (R18). -/
abbrev legalP (p : Byte) : Prop := p = 0x00 ∨ p = 0x02 ∨ p = 0x80

/-- The run states a machine can be in: a fault carries an illegal byte (R95), and
InvalidAddressingMode is never raised (R96). -/
def RunState.legal : RunState → Bool
  | .stopped => true
  | .running => true
  | .halted => true
  | .faulted (.unsupportedOpcode b) => !isOpcode b
  | .faulted .invalidAddressingMode => false

/-- The invariant: memory in its canonical form, P one of its three values and Y zero (R25), and a
legal run state (R95, R96). -/
abbrev State.Inv (s : State) : Prop :=
  s.mem.wf ∧ legalP s.p ∧ s.y = 0x00 ∧ s.runState.legal = true

/-- The states reachable from power-on by the moves of R120. -/
inductive Reachable : State → Prop where
  | powerOn : Reachable State.powerOn
  | move {s t : State} (m : Move) : Reachable s → move m s = .next t → Reachable t

/-- The move `m` taken in `s` writes the cell `a`: the writers of memory other than power-on (R44). -/
def Writes (m : Move) (s : State) (a : Word) : Prop :=
  match m with
  | .core =>
    (s.read8 s.pc = 0x85 ∧ a.toNat = (s.read8 (s.pc + 1)).toNat) ∨
    (s.read8 s.pc = 0x95 ∧ a.toNat = ((s.read8 (s.pc + 1)).toNat + s.x.toNat) % 256)
  | .host (.load image) => loadWrites image.length a
  | .host (.loadAndRun image) => loadWrites image.length a
  | .host .reset => False
  | .host .run => False
  | .host (.memWrite addr _) => a = addr

/-- Reachable from power-on by moves none of which writes the cell `a` (R25 (c)). -/
inductive ReachableUnwritten (a : Word) : State → Prop where
  | powerOn : ReachableUnwritten a State.powerOn
  | move {s t : State} (m : Move) :
      ReachableUnwritten a s → move m s = .next t → ¬ Writes m s a → ReachableUnwritten a t

end Sys2Proof.Machine
end

