-- ==== Sys2Proof/Certificates/Slice0/Obligations.lean ====
section
/-! DEFINITION. The statements for the provers, in the order of the spec's files. -/

open Sys2Proof Sys2Proof.Machine

/-! ### Encoding (30_encoding.md) -/

/-- Decode and encode agree, in both directions: bytes decode to an instruction exactly when they are its
encoding followed by the bytes that are left (R45, R46, R47, R49, R50, R53). Every instruction term is well
formed (R52), so no form and no operand value is shut out. -/
def Obligations.BytesDecodeExactlyFromTheEncoding : Prop :=
  ∀ i : Instr, i.wellFormed = true → ∀ bytes rest : List Byte,
    decode bytes = .ok (i, rest) ↔ bytes = encode i ++ rest

/-- The bytes of exactly one instruction, as R48 tells its length from byte 0, are those the decoder reads
whole. -/
def Obligations.LengthIsToldByTheOpcodeByte : Prop :=
  ∀ bytes : List Byte, wellFormedBytes bytes = true ↔ ∃ i, decode bytes = .ok (i, [])

/-- Words written out from the spec's encodings (R46, R49, R57), one per row of the opcode map, as bytes and
as the numbers of spec/opcode_table.json. -/
def Obligations.WordsOfTheSpecDecode : Prop :=
  decode [0x00] = .ok (.brk, []) ∧ decode [0xAA] = .ok (.tax, []) ∧ decode [0xE8] = .ok (.inx, []) ∧
    decode [0xA9, 0x05] = .ok (.ldaImm 0x05, []) ∧ decode [0xA5, 0x10] = .ok (.ldaZp 0x10, []) ∧
    decode [0xAD, 0x34, 0x12] = .ok (.ldaAbs 0x1234, []) ∧
    decode [0x85, 0x10] = .ok (.staZp 0x10, []) ∧ decode [0x95, 0x90] = .ok (.staZpX 0x90, []) ∧
    decodeTableWord 24 0x1234AD = some (.ldaAbs 0x1234) ∧
    decodeTableWord 16 0x9095 = some (.staZpX 0x90)

/-- R56: `lookup` answers nothing exactly for the bytes outside the closed set, its row for the others, and
nothing exactly when executing the byte raises UnsupportedOpcode of it. -/
def Obligations.LookupKnowsExactlyTheImplementedOpcodes : Prop :=
  (∀ b : Byte, lookup b = none ↔ b ∉ [0x00, 0x85, 0x95, 0xA5, 0xA9, 0xAA, 0xAD, 0xE8]) ∧
  (∀ (b : Byte) (d : Descriptor), lookup b = some d → d.code = b ∧ d ∈ opcodeTable) ∧
  ∀ s : State, s.runState = .running →
    (lookup (s.read8 s.pc) = none ↔
      ∃ t, step s = .next t ∧ t.runState = .faulted (.unsupportedOpcode (s.read8 s.pc)))

/-- The metadata row of an instruction's opcode has its mnemonic, its mode and its length (R49, R55), and
the table has one row per opcode byte. -/
def Obligations.MetadataAgreesWithTheDecoder : Prop :=
  wellFormedTable opcodeTable = true ∧
  ∀ (bytes rest : List Byte) (i : Instr), decode bytes = .ok (i, rest) →
    ∃ d, lookup (bytes.headD 0x00) = some d ∧ d.mnemonic = i.mnemonic ∧ d.mode = i.mode ∧
      bytes.length = d.length + rest.length

/-! ### Memory (20_memory.md) -/

/-- R27: a byte write is read back, changes no other cell, and a cell never written since power-on reads
0x00. That the read back holds in canonical memories, and that every write keeps that form, is the model's
representation (log 5), and the zero is the spec's decision D15. -/
def Obligations.ByteWriteIsReadBackAndChangesNoOtherCell : Prop :=
  (∀ (s : State) (addr : Word) (v : Byte), s.mem.wf →
    (s.write8 addr v).read8 addr = v ∧ (∀ b : Word, b ≠ addr → (s.write8 addr v).read8 b = s.read8 b) ∧
      (s.write8 addr v).mem.wf) ∧
  ∀ addr : Word, State.powerOn.read8 addr = 0x00

/-- A 16-bit access is little-endian at every address, and at 0xFFFF takes its high byte at 0x0000 (R28 with
decision D3, R29, R30); what was written is read back, and no third cell changes. -/
def Obligations.WordAccessIsLittleEndianAndWraps : Prop :=
  ∀ (s : State) (addr w : Word), s.mem.wf →
    (s.write16 addr w).read16 addr = w ∧
    ((s.write16 addr w).read8 addr).toNat = w.toNat % 256 ∧
    ((s.write16 addr w).read8 (addr + 1)).toNat = w.toNat / 256 ∧
    (∀ b : Word, b ≠ addr → b ≠ addr + 1 → (s.write16 addr w).read8 b = s.read8 b) ∧
    (s.read16 addr).toNat = (s.read8 (addr + 1)).toNat * 256 + (s.read8 addr).toNat ∧
    (addr = 0xFFFF → (s.read16 addr).toNat = (s.read8 0x0000).toNat * 256 + (s.read8 0xFFFF).toNat)

/-- The model's memory has one form: two canonical memories that read alike at every address are equal data
(the model's choice of representation, log 5, over R26). -/
def Obligations.CanonicalMemoriesThatReadAlikeAreEqual : Prop :=
  ∀ m n : Memory, m.wf → n.wf → (∀ a : Word, m.read a.toNat = n.read a.toNat) → m = n

/-- The complete list of the writers of memory (R44): where a move of either agent changes a cell, the move
is one that writes that cell. -/
def Obligations.OnlyTheListedWritersChangeMemory : Prop :=
  ∀ (m : Move) (s t : State) (a : Word), move m s = .next t → t.read8 a ≠ s.read8 a → Writes m s a

/-- No step of the core changes a cell outside the zero page (R34, R36). -/
def Obligations.NoStepWritesOutsideTheZeroPage : Prop :=
  ∀ (s t : State) (a : Word), step s = .next t → 0x0100 ≤ a.toNat → t.read8 a = s.read8 a

/-- A store is seen by the very next fetch (R41): where either store, STA ZeroPage or STA ZeroPage_X, stores at
the address the next opcode is fetched from, the next step executes the byte A as an opcode: the meaning of
what it decodes to, or the fault of an illegal byte. A zero A is then a BRK, and 0xE8 an INX. In canonical
memory (log 5). -/
def Obligations.StoreIsSeenByTheNextFetch : Prop :=
  ∀ s : State, s.mem.wf → s.runState = .running →
    ((s.read8 s.pc = 0x85 ∧ eaZeroPage (s.read8 (s.pc + 1)) = s.pc + 2) ∨
      (s.read8 s.pc = 0x95 ∧ eaZeroPageIndexed (s.read8 (s.pc + 1)) s.x = s.pc + 2)) →
    ∃ t, step s = .next t ∧ t.pc = s.pc + 2 ∧ t.read8 t.pc = s.a ∧
      (∀ (i : Instr) (rest : List Byte),
        decode [s.a, s.read8 (s.pc + 3), s.read8 (s.pc + 4)] = .ok (i, rest) →
        step t = exec i { t with pc := s.pc + 3 }) ∧
      (s.a ∉ [0x00, 0x85, 0x95, 0xA5, 0xA9, 0xAA, 0xAD, 0xE8] →
        ∃ u, step t = .next u ∧ u.runState = .faulted (.unsupportedOpcode s.a)) ∧
      (s.a = 0x00 → ∃ u, step t = .next u ∧ u.runState = .halted) ∧
      (s.a = 0xE8 → ∃ u, step t = .next u ∧ u.x = s.x + 1)

/-! ### The step and the flag generator (40_fetch_dispatch.md, 10_state.md) -/

/-- R63: `SetZN` sets Z iff the value is zero and N iff bit 7 of it is set, leaves the other six bits of P, for
every value and every P, changes nothing else, and never leaves Z and N both set. -/
def Obligations.FlagGeneratorRewritesOnlyZeroAndNegative : Prop :=
  ∀ (v : Byte) (s : State),
    FlagsFrom v s.p (setZN v s).p ∧
    (v = 0x00 → (setZN v s).flagZ = true ∧ (setZN v s).flagN = false) ∧
    (1 ≤ v.toNat → v.toNat ≤ 0x7F → (setZN v s).flagZ = false ∧ (setZN v s).flagN = false) ∧
    (0x80 ≤ v.toNat → (setZN v s).flagZ = false ∧ (setZN v s).flagN = true) ∧
    (setZN v s).a = s.a ∧ (setZN v s).x = s.x ∧ (setZN v s).y = s.y ∧ (setZN v s).pc = s.pc ∧
    (setZN v s).mem = s.mem ∧ (setZN v s).runState = s.runState

/-- A step of a running core whose bytes at PC decode to an instruction is that instruction's meaning with
PC past the opcode byte (R59, R60; logs 1 and 2). -/
def Obligations.StepRunsTheDecodedInstruction : Prop :=
  ∀ (s : State) (i : Instr) (rest : List Byte), s.runState = .running →
    decode [s.read8 s.pc, s.read8 (s.pc + 1), s.read8 (s.pc + 2)] = .ok (i, rest) →
    step s = exec i { s with pc := s.pc + 1 }

/-- The step, which decodes first and runs the meaning of the decoded instruction, is the spec's pseudocode,
which fetches one byte, switches on it, and has each handler resolve its operand from memory (R47, R59, R62,
R68). -/
def Obligations.StepIsThePseudocodeOfTheSpec : Prop :=
  ∀ s : State, s.runState = .running → step s = .next (pseudoStep s)

/-- The three outcomes of a step (R59): a running core always has a next state, which is Halted exactly when
the byte at PC is BRK's, Faulted with that byte exactly when it is illegal, and Running otherwise. So no step
raises InvalidAddressingMode (R96). -/
def Obligations.RunningCoreAlwaysHasANextState : Prop :=
  ∀ s : State, s.runState = .running → ∃ t, step s = .next t ∧
    (t.runState = .halted ↔ s.read8 s.pc = 0x00) ∧
    (∀ c, t.runState = .faulted c ↔
      c = .unsupportedOpcode (s.read8 s.pc) ∧
        s.read8 s.pc ∉ [0x00, 0x85, 0x95, 0xA5, 0xA9, 0xAA, 0xAD, 0xE8]) ∧
    t.runState ≠ .stopped

/-- The core has no move unless it is Running, and the stop names the run state (R110, R120 with decisions D1
and D2; the form of the stop is the model's, log 3). -/
def Obligations.CoreHasNoMoveUnlessRunning : Prop :=
  ∀ s : State,
    (s.runState = .stopped → step s = .fault .coreStopped) ∧
    (s.runState = .halted → step s = .fault .coreHalted) ∧
    (∀ c, s.runState = .faulted c → step s = .fault (.coreFaulted c)) ∧
    ∀ t, step s = .next t → s.runState = .running

/-- R14: how far each opcode byte advances PC, and that nothing but reset writes it otherwise. -/
def Obligations.PcAdvancesByTheInstructionLength : Prop :=
  (∀ s t : State, step s = .next t →
    (s.read8 s.pc = 0xAD → t.pc = s.pc + 3) ∧
    (s.read8 s.pc ∈ ([0xA9, 0xA5, 0x85, 0x95] : List Byte) → t.pc = s.pc + 2) ∧
    (s.read8 s.pc ∉ ([0xAD, 0xA9, 0xA5, 0x85, 0x95] : List Byte) → t.pc = s.pc + 1)) ∧
  (∀ (s t : State) (image : List Byte), hostMove (.load image) s = .next t → t.pc = s.pc) ∧
  (∀ (s t : State) (addr : Word) (v : Byte), hostMove (.memWrite addr v) s = .next t → t.pc = s.pc) ∧
  ∀ s t : State, hostMove .run s = .next t → t.pc = s.pc

/-- An instruction may straddle the top of the address space (R15): with the opcode at 0xFFFE the operand
bytes of LDA Absolute come from 0xFFFF and 0x0000 and PC ends at 0x0001. -/
def Obligations.InstructionStraddlesTheTopOfMemory : Prop :=
  ∀ s : State, s.runState = .running → s.pc = 0xFFFE → s.read8 0xFFFE = 0xAD →
    ∃ t, step s = .next t ∧ t.pc = 0x0001 ∧
      ∀ ea : Word, ea.toNat = (s.read8 0x0000).toNat * 256 + (s.read8 0xFFFF).toNat →
        t.a = s.read8 ea

/-- Which opcode may change which register (R11, R12, R17): A only the loads, X only TAX and INX, P only those
five, Y none. -/
def Obligations.StepChangesOnlyTheRegistersItsOpcodeNames : Prop :=
  ∀ s t : State, step s = .next t →
    (t.a ≠ s.a → s.read8 s.pc ∈ ([0xA9, 0xA5, 0xAD] : List Byte)) ∧
    (t.x ≠ s.x → s.read8 s.pc ∈ ([0xAA, 0xE8] : List Byte)) ∧
    (t.p ≠ s.p → s.read8 s.pc ∈ ([0xA9, 0xA5, 0xAD, 0xAA, 0xE8] : List Byte)) ∧
    t.y = s.y

/-- No instruction reads Y (R12): a step from the same state with another Y gives the same state with that
Y. -/
def Obligations.NoStepReadsY : Prop :=
  ∀ (s t : State) (v : Byte), step s = .next t →
    step { s with y := v } = .next { t with y := v }

/-- No instruction reads P (R17): a step from the same state with another P gives the same state but for
P, and the same Z and N where the instruction writes them. -/
def Obligations.NoStepReadsTheStatusRegister : Prop :=
  ∀ (s t : State) (q : Byte), step s = .next t →
    ∃ r, step { s with p := q } = .next { t with p := r } ∧
      (s.read8 s.pc ∈ ([0xA9, 0xA5, 0xAD, 0xAA, 0xE8] : List Byte) →
        r.getLsbD 1 = t.p.getLsbD 1 ∧ r.getLsbD 7 = t.p.getLsbD 7) ∧
      (s.read8 s.pc ∉ ([0xA9, 0xA5, 0xAD, 0xAA, 0xE8] : List Byte) → r = q)

/-- A run that meets neither BRK nor an illegal byte never ends (R66, R122): with every cell 0xE8 the core is
Running after any number of steps, and has counted them in X and PC. -/
def Obligations.RunOfAllInxNeverEnds : Prop :=
  ∀ s : State, s.runState = .running → (∀ a : Word, s.read8 a = 0xE8) → ∀ n : Nat,
    (coreRun n s).runState = .running ∧
    (coreRun n s).x.toNat = (s.x.toNat + n) % 256 ∧
    (coreRun n s).pc.toNat = (s.pc.toNat + n) % 65536

/-! ### The addressing resolver (41_addressing.md) -/

/-- The four memory modes the opcodes use (R69, R70, R71, R72), by value: the operand address itself, the
operand byte, the operand byte plus X modulo 256, the two operand bytes low byte first. -/
def Obligations.ResolverOfTheUsedModes : Prop :=
  ∀ s : State,
    resolve .immediate s = .ok s.pc ∧
    (∃ ea, resolve .zeroPage s = .ok ea ∧ ea.toNat = (s.read8 s.pc).toNat) ∧
    (∃ ea, resolve .zeroPageX s = .ok ea ∧ ea.toNat = ((s.read8 s.pc).toNat + s.x.toNat) % 256) ∧
    ∃ ea, resolve .absolute s = .ok ea ∧
      ea.toNat = (s.read8 (s.pc + 1)).toNat * 256 + (s.read8 s.pc).toNat

/-- Four of the modes no opcode uses (R73, R74, R75, R76), by value: the indexed zero page by Y, the indexed
absolute forms, which carry into the high byte and wrap at the top, and Indirect_X, whose pointer wraps
inside the zero page. -/
def Obligations.ResolverOfTheUnusedModes : Prop :=
  ∀ s : State,
    (∃ ea, resolve .zeroPageY s = .ok ea ∧ ea.toNat = ((s.read8 s.pc).toNat + s.y.toNat) % 256) ∧
    (∃ ea, resolve .absoluteX s = .ok ea ∧
      ea.toNat = ((s.read8 (s.pc + 1)).toNat * 256 + (s.read8 s.pc).toNat + s.x.toNat) % 65536) ∧
    (∃ ea, resolve .absoluteY s = .ok ea ∧
      ea.toNat = ((s.read8 (s.pc + 1)).toNat * 256 + (s.read8 s.pc).toNat + s.y.toNat) % 65536) ∧
    ∀ lo hi : Word, lo.toNat = ((s.read8 s.pc).toNat + s.x.toNat) % 256 →
      hi.toNat = ((s.read8 s.pc).toNat + s.x.toNat + 1) % 256 →
      ∃ ea, resolve .indirectX s = .ok ea ∧
        ea.toNat = (s.read8 hi).toNat * 256 + (s.read8 lo).toNat

/-- Indirect_Y (R77) for either value of INDY_ZP_WRAP (D4): the pointed-to address plus Y modulo 65536, its
high byte from the next zero-page cell; only for a pointer of 0xFF do the two values differ, in whether that
cell is 0x0000 or 0x0100. -/
def Obligations.IndirectYUnderEitherWrap : Prop :=
  ∀ (wrap : Bool) (s : State) (lo hi : Word), lo.toNat = (s.read8 s.pc).toNat →
    (s.read8 s.pc ≠ 0xFF → hi.toNat = lo.toNat + 1) →
    (s.read8 s.pc = 0xFF → hi.toNat = if wrap then 0x0000 else 0x0100) →
    ∃ ea, resolveWith wrap .indirectY s = .ok ea ∧
      ea.toNat = ((s.read8 hi).toNat * 256 + (s.read8 lo).toNat + s.y.toNat) % 65536

/-- The resolver's only failure is mode None, which raises InvalidAddressingMode (R68, R78), under either
value of INDY_ZP_WRAP. -/
def Obligations.ResolverFailsOnlyOnModeNone : Prop :=
  ∀ (wrap : Bool) (mode : AddrMode) (s : State) (c : Cause),
    resolveWith wrap mode s = .error c ↔ mode = .none ∧ c = .invalidAddressingMode

/-! ### The instructions (42_load_store.md, 43_register_ops.md, 44_system.md) -/

/-- LDA Immediate (R80), as a meaning and as a step: A takes the operand byte, the flags follow it, PC passes
the instruction, nothing else changes. -/
def Obligations.LdaImmediateLoadsTheOperandByte : Prop :=
  (∀ (d8 : Byte) (s : State), ∃ t, exec (.ldaImm d8) s = .next t ∧ LoadsByte d8 1 s t) ∧
  ∀ s : State, s.runState = .running → s.read8 s.pc = 0xA9 →
    ∃ t, step s = .next t ∧ LoadsByte (s.read8 (s.pc + 1)) 2 s t

/-- LDA ZeroPage (R81), as a meaning and as a step: A takes the byte at 0x00nn. -/
def Obligations.LdaZeroPageLoadsTheCell : Prop :=
  (∀ (d8 : Byte) (s : State) (ea : Word), ea.toNat = d8.toNat →
    ∃ t, exec (.ldaZp d8) s = .next t ∧ LoadsByte (s.read8 ea) 1 s t) ∧
  ∀ (s : State) (ea : Word), s.runState = .running → s.read8 s.pc = 0xA5 →
    ea.toNat = (s.read8 (s.pc + 1)).toNat →
    ∃ t, step s = .next t ∧ LoadsByte (s.read8 ea) 2 s t

/-- LDA Absolute (R82), as a meaning and as a step: A takes the byte at the address whose low byte is the
first operand byte, wherever in memory that is. -/
def Obligations.LdaAbsoluteLoadsTheCell : Prop :=
  (∀ (a16 : Word) (s : State), ∃ t, exec (.ldaAbs a16) s = .next t ∧ LoadsByte (s.read8 a16) 2 s t) ∧
  ∀ (s : State) (ea : Word), s.runState = .running → s.read8 s.pc = 0xAD →
    ea.toNat = (s.read8 (s.pc + 2)).toNat * 256 + (s.read8 (s.pc + 1)).toNat →
    ∃ t, step s = .next t ∧ LoadsByte (s.read8 ea) 3 s t

/-- STA ZeroPage (R83), as a meaning and as a step: the cell the meaning's own address function gives, which
is 0x00nn, takes A; every other cell, the flags and the registers are as before. -/
def Obligations.StaZeroPageStoresAInTheCell : Prop :=
  (∀ (d8 : Byte) (s : State), s.mem.wf → (eaZeroPage d8).toNat = d8.toNat ∧
    ∃ t, exec (.staZp d8) s = .next t ∧ StoresByte (eaZeroPage d8) 1 s t) ∧
  ∀ s : State, s.mem.wf → s.runState = .running → s.read8 s.pc = 0x85 →
    ∃ t, step s = .next t ∧ StoresByte (eaZeroPage (s.read8 (s.pc + 1))) 2 s t

/-- STA ZeroPage_X (R84), as a meaning and as a step: the cell the meaning's own address function gives, the
base plus X wrapped inside the zero page, takes A; every other cell, the flags and the registers are as
before. -/
def Obligations.StaZeroPageXStoresAInTheCell : Prop :=
  (∀ (d8 : Byte) (s : State), s.mem.wf →
    (eaZeroPageIndexed d8 s.x).toNat = (d8.toNat + s.x.toNat) % 256 ∧
    ∃ t, exec (.staZpX d8) s = .next t ∧ StoresByte (eaZeroPageIndexed d8 s.x) 1 s t) ∧
  ∀ s : State, s.mem.wf → s.runState = .running → s.read8 s.pc = 0x95 →
    ∃ t, step s = .next t ∧ StoresByte (eaZeroPageIndexed (s.read8 (s.pc + 1)) s.x) 2 s t

/-- The frame of the stores in memories that need not be canonical: whatever address the meaning's own
address function gives, every other byte reads as before, and the canonical form is kept (R83, R84, R85). -/
def Obligations.StoresLeaveEveryOtherByte : Prop :=
  ∀ (d8 : Byte) (s t : State) (ea : Word),
    ((ea = eaZeroPage d8 ∧ exec (.staZp d8) s = .next t) ∨
      (ea = eaZeroPageIndexed d8 s.x ∧ exec (.staZpX d8) s = .next t)) →
    (∀ b : Word, b ≠ ea → t.read8 b = s.read8 b) ∧ (s.mem.wf → t.mem.wf) ∧ ea.toNat < 0x0100

/-- TAX (R86), as a meaning and as a step: X takes A and the flags follow it. -/
def Obligations.TaxCopiesAToX : Prop :=
  (∀ s : State, ∃ t, exec .tax s = .next t ∧ WritesX s.a 0 s t) ∧
  ∀ s : State, s.runState = .running → s.read8 s.pc = 0xAA →
    ∃ t, step s = .next t ∧ WritesX s.a 1 s t

/-- INX (R87), as a meaning and as a step: X takes X + 1 modulo 256 and the flags follow it. -/
def Obligations.InxIncrementsXModulo256 : Prop :=
  (∀ (s : State) (v : Byte), v.toNat = (s.x.toNat + 1) % 256 →
    ∃ t, exec .inx s = .next t ∧ WritesX v 0 s t) ∧
  ∀ (s : State) (v : Byte), v.toNat = (s.x.toNat + 1) % 256 → s.runState = .running →
    s.read8 s.pc = 0xE8 → ∃ t, step s = .next t ∧ WritesX v 1 s t

/-- From X = 0xFF, two INX in a row give X = 1: the first is the wrap and sets Z, the second clears it (R87
with conflict C1). -/
def Obligations.TwoInxFromFFWrapThroughZero : Prop :=
  ∀ s : State, s.runState = .running → s.x = 0xFF → s.read8 s.pc = 0xE8 →
    s.read8 (s.pc + 1) = 0xE8 →
    (coreRun 1 s).x = 0x00 ∧ (coreRun 1 s).flagZ = true ∧ (coreRun 1 s).flagN = false ∧
    (coreRun 2 s).x = 0x01 ∧ (coreRun 2 s).flagZ = false ∧ (coreRun 2 s).flagN = false

/-- BRK (R89), as a meaning and as a step: the run state becomes Halted, nothing else changes but PC past
the byte, `run` returns normally, the core takes no further step, and there is no resume: `run` has a move
again only after a reset. -/
def Obligations.BrkHaltsAndChangesNothingElse : Prop :=
  (∀ s : State, ∃ t, exec .brk s = .next t ∧ t.runState = .halted ∧ t.pc = s.pc ∧ SameData s t) ∧
  ∀ s : State, s.runState = .running → s.read8 s.pc = 0x00 →
    ∃ t, step s = .next t ∧ t.runState = .halted ∧ t.pc = s.pc + 1 ∧ SameData s t ∧
      runReturn t = some .normal ∧ (∀ u, step t ≠ .next u) ∧
      (∀ u, hostMove .run t ≠ .next u) ∧
      ∃ u v, hostMove .reset t = .next u ∧ hostMove .run u = .next v ∧ v.runState = .running

/-! ### Exceptions (60_exceptions.md) -/

/-- R51, R95: a byte outside the eight raises UnsupportedOpcode of that byte. That PC is past the byte and
everything else as before is R97, which the spec marks as its inference, and that the outcome is a next state
whose run state is Faulted is R98 with decision D1 (log 4). The state is inspectable by the host, `run` returns
the error, and the core does not continue. -/
def Obligations.IllegalOpcodeFaultsWithItsByte : Prop :=
  ∀ s : State, s.runState = .running →
    s.read8 s.pc ∉ [0x00, 0x85, 0x95, 0xA5, 0xA9, 0xAA, 0xAD, 0xE8] →
    ∃ t, step s = .next t ∧ t.runState = .faulted (.unsupportedOpcode (s.read8 s.pc)) ∧
      t.pc = s.pc + 1 ∧ SameData s t ∧
      runReturn t = some (.error (.unsupportedOpcode (s.read8 s.pc))) ∧
      hostQuery .registerA t = some (.byte s.a) ∧ hostQuery .registerX t = some (.byte s.x) ∧
      hostQuery .registerY t = some (.byte s.y) ∧ hostQuery .status t = some (.byte s.p) ∧
      hostQuery .programCounter t = some (.word (s.pc + 1)) ∧
      (∀ a, hostQuery (.memRead a) t = some (.byte (s.read8 a))) ∧ ∀ u, step t ≠ .next u

/-- R98: taking an exception makes the run state Faulted with its cause, saves nothing, sends control nowhere,
and the core takes no further step; `run` returns the error. -/
def Obligations.RaiseStopsTheCoreAndSavesNothing : Prop :=
  ∀ (c : Cause) (s : State),
    (raise c s).runState = .faulted c ∧ (raise c s).pc = s.pc ∧ SameData s (raise c s) ∧
    (∀ u, step (raise c s) ≠ .next u) ∧ runReturn (raise c s) = some (.error c) ∧
    ¬ (raise c s).finished

/-! ### Power-on, reset, load and run (70_reset_and_hazards.md) -/

/-- R111: after power-on A, X, Y and P are 0x00, PC is 0x0000, every cell is 0x00 and the core is Stopped. -/
def Obligations.PowerOnZeroesEverything : Prop :=
  State.powerOn.a = 0x00 ∧ State.powerOn.x = 0x00 ∧ State.powerOn.y = 0x00 ∧
    State.powerOn.p = 0x00 ∧ State.powerOn.pc = 0x0000 ∧
    (∀ a : Word, State.powerOn.read8 a = 0x00) ∧ State.powerOn.runState = .stopped

/-- Reset (R112 with decisions D1, D8 and D16), in every run state but Running: A, X and P are zeroed, PC is
the vector's value low byte first, the core is Stopped, Y and memory are untouched. -/
def Obligations.ResetZeroesAXPAndReadsTheVector : Prop :=
  ∀ s : State, s.runState ≠ .running → ∃ t, hostMove .reset s = .next t ∧
    t.a = 0x00 ∧ t.x = 0x00 ∧ t.p = 0x00 ∧ t.y = s.y ∧ t.mem = s.mem ∧ t.runState = .stopped ∧
    t.pc.toNat = (s.read8 0xFFFD).toNat * 256 + (s.read8 0xFFFC).toNat

/-- The model's reset state is what the host's reset makes of the power-on state (R24; log 6). -/
def Obligations.ResetStateIsTheResetOfPowerOn : Prop :=
  hostMove .reset State.powerOn = .next State.reset

/-- R113: reset starts at whatever the vector holds at that time: 0x8000 after any load, the two bytes the
host last wrote there, 0x0000 where nothing was written; and it reads no other memory. -/
def Obligations.ResetStartsWhereTheVectorPoints : Prop :=
  (∀ (image : List Byte) (s t u : State), s.mem.wf → hostMove (.load image) s = .next t →
    hostMove .reset t = .next u → u.pc = 0x8000) ∧
  (∀ (lo hi : Byte) (s t u v : State), s.mem.wf → hostMove (.memWrite 0xFFFC lo) s = .next t →
    hostMove (.memWrite 0xFFFD hi) t = .next u → hostMove .reset u = .next v →
    v.pc.toNat = hi.toNat * 256 + lo.toNat) ∧
  (∀ u : State, hostMove .reset State.powerOn = .next u → u.pc = 0x0000) ∧
  ∀ s t u v : State, s.read8 0xFFFC = t.read8 0xFFFC → s.read8 0xFFFD = t.read8 0xFFFD →
    hostMove .reset s = .next u → hostMove .reset t = .next v → u.pc = v.pc

/-- An accepted load (R114, R115): the image verbatim at 0x8000 upward but for the vector, which wins, and no
other cell, no register and not the run state. -/
def Obligations.LoadWritesTheImageThenTheVector : Prop :=
  ∀ (image : List Byte) (s : State), s.mem.wf → s.runState ≠ .running → image.length ≤ 0x8000 →
    ∃ t, hostMove (.load image) s = .next t ∧ HoldsImage image s t ∧ t.a = s.a ∧ t.x = s.x ∧
      t.y = s.y ∧ t.p = s.p ∧ t.pc = s.pc ∧ t.runState = s.runState

/-- A longer image is refused whole, with no next state (R114 with decision D10; log 10). -/
def Obligations.TooLongImageIsRefused : Prop :=
  ∀ (image : List Byte) (s : State), s.runState ≠ .running → 0x8000 < image.length →
    hostMove (.load image) s = .refused (.imageTooLong image.length) ∧
    hostMove (.loadAndRun image) s = .refused (.imageTooLong image.length)

/-- The table of R120 (decisions D2, D8, D9, D16, D19; log 11): the host has no move while Running, `run` has
one only in Stopped, and every other operation has one in every other run state but for a too long image;
accessors answer exactly when the core is not Running, and answer the current value (R118, R119). -/
def Obligations.HostMovesOnlyWhileTheCoreIsNotRunning : Prop :=
  (∀ (mv : HostMove) (s : State),
    hostMove mv s = .refused .hostNoMove ↔
      s.runState = .running ∨ (mv = .run ∧ s.runState ≠ .stopped)) ∧
  (∀ (q : HostQuery) (s : State), hostQuery q s = none ↔ s.runState = .running) ∧
  (∀ s : State, s.runState ≠ .running →
    hostQuery .registerA s = some (.byte s.a) ∧ hostQuery .registerX s = some (.byte s.x) ∧
    hostQuery .registerY s = some (.byte s.y) ∧ hostQuery .status s = some (.byte s.p) ∧
    hostQuery .programCounter s = some (.word s.pc) ∧
    ∀ a, hostQuery (.memRead a) s = some (.byte (s.read8 a))) ∧
  ∀ (s : State) (a : Word) (v : Byte), s.runState ≠ .running →
    hostMove (.memWrite a v) s = .next (s.write8 a v)

/-- `load_and_run` is load, then reset, then run (R117), and this is the state at the program's first step
(R125). -/
def Obligations.LoadAndRunStartsTheProgram : Prop :=
  (∀ (image : List Byte) (s t u v : State), hostMove (.load image) s = .next t →
    hostMove .reset t = .next u → hostMove .run u = .next v →
    hostMove (.loadAndRun image) s = .next v) ∧
  ∀ (image : List Byte) (s : State), s.mem.wf → s.runState ≠ .running → image.length ≤ 0x8000 →
    ∃ t, hostMove (.loadAndRun image) s = .next t ∧ HoldsImage image s t ∧ t.a = 0x00 ∧
      t.x = 0x00 ∧ t.y = s.y ∧ t.p = 0x00 ∧ t.pc = 0x8000 ∧ t.runState = .running

/-- `run` has a move in every Stopped state, to Running, and writes nothing but the run state (R116, R120 with
decisions D1 and D2); and straight after power-on it has one, after which the core halts at its first step with
PC = 0x0001 and stays so (R116). -/
def Obligations.RunStraightAfterPowerOnHaltsAtOnce : Prop :=
  (∀ s : State, s.runState = .stopped →
    ∃ t, hostMove .run s = .next t ∧ t.runState = .running ∧ t.pc = s.pc ∧ SameData s t) ∧
  ∃ t, hostMove .run State.powerOn = .next t ∧
    step t = .next { State.powerOn with pc := 0x0001, runState := .halted } ∧
    ∀ n : Nat, 1 ≤ n → coreRun n t = { State.powerOn with pc := 0x0001, runState := .halted }

/-- R93: `run` returns normally exactly in Halted, the end of a successful run, and returns the error exactly in
Faulted. -/
def Obligations.RunReturnTellsBrkFromAFault : Prop :=
  ∀ s : State,
    (runReturn s = some .normal ↔ s.finished) ∧
    (∀ c, runReturn s = some (.error c) ↔ s.runState = .faulted c) ∧
    (runReturn s = none ↔ s.runState = .stopped ∨ s.runState = .running)

/-- A core that has stopped stays as it is, however long it is left (R67, R110). -/
def Obligations.StoppedCoreKeepsItsState : Prop :=
  ∀ (s : State) (n : Nat), s.runState ≠ .running → coreRun n s = s

/-! ### The invariant (10_state.md rule R25) -/

/-- The invariant holds after power-on and after reset. -/
def Obligations.InvariantHoldsAtPowerOnAndReset : Prop :=
  State.powerOn.Inv ∧ State.reset.Inv

/-- Every step of the core keeps the invariant: memory canonical, P one of 0x00, 0x02, 0x80, Y zero, the run
state legal (R18, R25, R95, R96). -/
def Obligations.EveryStepKeepsTheInvariant : Prop :=
  ∀ s t : State, s.Inv → step s = .next t → t.Inv

/-- Every move of the host keeps the invariant. -/
def Obligations.EveryHostMoveKeepsTheInvariant : Prop :=
  ∀ (mv : HostMove) (s t : State), s.Inv → hostMove mv s = .next t → t.Inv

/-- R25 (a) and (b), with R18 and R96, of every state reachable from power-on by the moves of R120: P takes
three values only, so its reserved bits are zero, Y is zero, and no fault is InvalidAddressingMode. That memory
is canonical is the model's representation (log 5). -/
def Obligations.ReachableStatesHaveLegalPAndZeroY : Prop :=
  ∀ s : State, Reachable s →
    (s.p = 0x00 ∨ s.p = 0x02 ∨ s.p = 0x80) ∧ s.y = 0x00 ∧
      s.runState ≠ .faulted .invalidAddressingMode ∧ s.mem.wf

/-- R25 (c): a cell that no STA, `mem_write` or `load` has written since power-on holds 0x00. The zero is the
spec's decision D15 (log 5). -/
def Obligations.CellsNeverWrittenHoldZero : Prop :=
  ∀ (a : Word) (s : State), ReachableUnwritten a s → s.read8 a = 0x00
end

