-- ==== Sys2Proof/Laws/Decode.lean ====
section
/-! SUPPORT. The decoder's cases, the byte-order helpers, and the shape of an encoding (30_encoding.md
rules R45 to R50). -/

namespace Sys2Proof

/-- The value of a concatenation (00_scope.md rule R5). -/
theorem concat16_toNat (hi lo : Byte) : (concat16 hi lo).toNat = hi.toNat * 256 + lo.toNat := by
  have := hi.isLt
  have := lo.isLt
  simp only [concat16, BitVec.toNat_ofNat]
  omega

/-- The value of the low byte of a word. -/
theorem lowByte_toNat (w : Word) : (lowByte w).toNat = w.toNat % 256 := by
  simp only [lowByte, BitVec.toNat_ofNat]
  omega

/-- The value of the high byte of a word. -/
theorem highByte_toNat (w : Word) : (highByte w).toNat = w.toNat / 256 := by
  have := w.isLt
  simp only [highByte, BitVec.toNat_ofNat]
  omega

/-- The high byte of a concatenation. -/
@[simp] theorem highByte_concat16 (hi lo : Byte) : highByte (concat16 hi lo) = hi := by
  have := lo.isLt
  apply BitVec.eq_of_toNat_eq
  rw [highByte_toNat, concat16_toNat]
  omega

/-- The low byte of a concatenation. -/
@[simp] theorem lowByte_concat16 (hi lo : Byte) : lowByte (concat16 hi lo) = lo := by
  have := lo.isLt
  apply BitVec.eq_of_toNat_eq
  rw [lowByte_toNat, concat16_toNat]
  omega

/-- A word is its two bytes. -/
@[simp] theorem concat16_high_low (w : Word) : concat16 (highByte w) (lowByte w) = w := by
  apply BitVec.eq_of_toNat_eq
  rw [concat16_toNat, highByte_toNat, lowByte_toNat]
  omega

/-- What the switch on the opcode byte can answer: one case per row of R49, or nothing. -/
theorem decodeOp_cases (op d1 d2 : Byte) :
    (op = 0x00 ∧ decodeOp op d1 d2 = some .brk) ∨
    (op = 0xAA ∧ decodeOp op d1 d2 = some .tax) ∨
    (op = 0xE8 ∧ decodeOp op d1 d2 = some .inx) ∨
    (op = 0xA9 ∧ decodeOp op d1 d2 = some (.ldaImm d1)) ∨
    (op = 0xA5 ∧ decodeOp op d1 d2 = some (.ldaZp d1)) ∨
    (op = 0xAD ∧ decodeOp op d1 d2 = some (.ldaAbs (concat16 d2 d1))) ∨
    (op = 0x85 ∧ decodeOp op d1 d2 = some (.staZp d1)) ∨
    (op = 0x95 ∧ decodeOp op d1 d2 = some (.staZpX d1)) ∨
    (isOpcode op = false ∧ decodeOp op d1 d2 = none) := by
  unfold decodeOp
  split_ifs <;> simp_all [isOpcode, opcodes]

/-- The switch finds the instruction whose opcode it is given. -/
theorem decodeOp_opcode {op d1 d2 : Byte} {i : Instr} (h : decodeOp op d1 d2 = some i) :
    i.opcode = op := by
  rcases decodeOp_cases op d1 d2 with ⟨rfl, e⟩ | ⟨rfl, e⟩ | ⟨rfl, e⟩ | ⟨rfl, e⟩ | ⟨rfl, e⟩ |
    ⟨rfl, e⟩ | ⟨rfl, e⟩ | ⟨rfl, e⟩ | ⟨-, e⟩ <;> rw [e] at h <;> cases h <;> rfl

/-- Decoding bytes that are not empty: the switch on the first, then the length check. -/
theorem decode_cons (op : Byte) (rest : List Byte) :
    decode (op :: rest) =
      match decodeOp op (rest.getD 0 0x00) (rest.getD 1 0x00) with
      | none => .error (.unsupportedOpcode op)
      | some i =>
        if i.operandCount ≤ rest.length then .ok (i, rest.drop i.operandCount)
        else .error (.truncated op) := rfl

/-- Decoding at the head of at least two more bytes never runs out of operand bytes. -/
theorem decode_three (op d1 d2 : Byte) (rest : List Byte) :
    decode (op :: d1 :: d2 :: rest) =
      match decodeOp op d1 d2 with
      | none => .error (.unsupportedOpcode op)
      | some i => .ok (i, (d1 :: d2 :: rest).drop i.operandCount) := by
  rw [decode_cons]
  simp only [List.getD_cons_zero, List.getD_cons_succ]
  split
  · rfl
  · next i _ =>
    have : i.operandCount ≤ (d1 :: d2 :: rest).length := by
      cases i <;> simp [Instr.operandCount]
    rw [if_pos this]

/-- An encoding begins with the opcode byte and has the operand bytes of its length (R45). -/
theorem encode_head (i : Instr) : ∃ operands, encode i = i.opcode :: operands := by
  cases i <;> exact ⟨_, rfl⟩

/-- The length of an encoding is 1 plus the number of operand bytes (R45). -/
theorem encode_length (i : Instr) : (encode i).length = 1 + i.operandCount := by
  cases i <;> rfl

/-- The operand count of an instruction is its mode's (R79). -/
theorem operandCount_mode (i : Instr) : i.operandCount = i.mode.operandBytes := by
  cases i <;> rfl

end Sys2Proof
end

