-- ==== Sys2Proof/Laws/State.lean ====
section
/-! SUPPORT. One lemma per field per update, so that no later proof unfolds a record update. -/

namespace Sys2Proof.Machine

@[simp] theorem State.setA_a (s : State) (v : Byte) : (s.setA v).a = v := rfl
@[simp] theorem State.setA_x (s : State) (v : Byte) : (s.setA v).x = s.x := rfl
@[simp] theorem State.setA_y (s : State) (v : Byte) : (s.setA v).y = s.y := rfl
@[simp] theorem State.setA_p (s : State) (v : Byte) : (s.setA v).p = s.p := rfl
@[simp] theorem State.setA_pc (s : State) (v : Byte) : (s.setA v).pc = s.pc := rfl
@[simp] theorem State.setA_mem (s : State) (v : Byte) : (s.setA v).mem = s.mem := rfl
@[simp] theorem State.setA_runState (s : State) (v : Byte) : (s.setA v).runState = s.runState := rfl

@[simp] theorem State.setX_a (s : State) (v : Byte) : (s.setX v).a = s.a := rfl
@[simp] theorem State.setX_x (s : State) (v : Byte) : (s.setX v).x = v := rfl
@[simp] theorem State.setX_y (s : State) (v : Byte) : (s.setX v).y = s.y := rfl
@[simp] theorem State.setX_p (s : State) (v : Byte) : (s.setX v).p = s.p := rfl
@[simp] theorem State.setX_pc (s : State) (v : Byte) : (s.setX v).pc = s.pc := rfl
@[simp] theorem State.setX_mem (s : State) (v : Byte) : (s.setX v).mem = s.mem := rfl
@[simp] theorem State.setX_runState (s : State) (v : Byte) : (s.setX v).runState = s.runState := rfl

@[simp] theorem State.setP_a (s : State) (v : Byte) : (s.setP v).a = s.a := rfl
@[simp] theorem State.setP_x (s : State) (v : Byte) : (s.setP v).x = s.x := rfl
@[simp] theorem State.setP_y (s : State) (v : Byte) : (s.setP v).y = s.y := rfl
@[simp] theorem State.setP_p (s : State) (v : Byte) : (s.setP v).p = v := rfl
@[simp] theorem State.setP_pc (s : State) (v : Byte) : (s.setP v).pc = s.pc := rfl
@[simp] theorem State.setP_mem (s : State) (v : Byte) : (s.setP v).mem = s.mem := rfl
@[simp] theorem State.setP_runState (s : State) (v : Byte) : (s.setP v).runState = s.runState := rfl

@[simp] theorem State.advancePc_a (s : State) (k : Word) : (s.advancePc k).a = s.a := rfl
@[simp] theorem State.advancePc_x (s : State) (k : Word) : (s.advancePc k).x = s.x := rfl
@[simp] theorem State.advancePc_y (s : State) (k : Word) : (s.advancePc k).y = s.y := rfl
@[simp] theorem State.advancePc_p (s : State) (k : Word) : (s.advancePc k).p = s.p := rfl
@[simp] theorem State.advancePc_pc (s : State) (k : Word) : (s.advancePc k).pc = s.pc + k := rfl
@[simp] theorem State.advancePc_mem (s : State) (k : Word) : (s.advancePc k).mem = s.mem := rfl
@[simp] theorem State.advancePc_runState (s : State) (k : Word) : (s.advancePc k).runState = s.runState := rfl

@[simp] theorem State.setRun_a (s : State) (r : RunState) : (s.setRun r).a = s.a := rfl
@[simp] theorem State.setRun_x (s : State) (r : RunState) : (s.setRun r).x = s.x := rfl
@[simp] theorem State.setRun_y (s : State) (r : RunState) : (s.setRun r).y = s.y := rfl
@[simp] theorem State.setRun_p (s : State) (r : RunState) : (s.setRun r).p = s.p := rfl
@[simp] theorem State.setRun_pc (s : State) (r : RunState) : (s.setRun r).pc = s.pc := rfl
@[simp] theorem State.setRun_mem (s : State) (r : RunState) : (s.setRun r).mem = s.mem := rfl
@[simp] theorem State.setRun_runState (s : State) (r : RunState) : (s.setRun r).runState = r := rfl

@[simp] theorem State.write8_a (s : State) (addr : Word) (v : Byte) : (s.write8 addr v).a = s.a := rfl
@[simp] theorem State.write8_x (s : State) (addr : Word) (v : Byte) : (s.write8 addr v).x = s.x := rfl
@[simp] theorem State.write8_y (s : State) (addr : Word) (v : Byte) : (s.write8 addr v).y = s.y := rfl
@[simp] theorem State.write8_p (s : State) (addr : Word) (v : Byte) : (s.write8 addr v).p = s.p := rfl
@[simp] theorem State.write8_pc (s : State) (addr : Word) (v : Byte) : (s.write8 addr v).pc = s.pc := rfl
@[simp] theorem State.write8_mem (s : State) (addr : Word) (v : Byte) : (s.write8 addr v).mem = s.mem.write addr.toNat v := rfl
@[simp] theorem State.write8_runState (s : State) (addr : Word) (v : Byte) : (s.write8 addr v).runState = s.runState := rfl

@[simp] theorem raise_a (c : Cause) (s : State) : (raise c s).a = s.a := rfl
@[simp] theorem raise_x (c : Cause) (s : State) : (raise c s).x = s.x := rfl
@[simp] theorem raise_y (c : Cause) (s : State) : (raise c s).y = s.y := rfl
@[simp] theorem raise_p (c : Cause) (s : State) : (raise c s).p = s.p := rfl
@[simp] theorem raise_pc (c : Cause) (s : State) : (raise c s).pc = s.pc := rfl
@[simp] theorem raise_mem (c : Cause) (s : State) : (raise c s).mem = s.mem := rfl
@[simp] theorem raise_runState (c : Cause) (s : State) : (raise c s).runState = .faulted c := rfl

/-- A byte read depends on memory alone. -/
theorem State.read8_congr (s t : State) (h : s.mem = t.mem) (addr : Word) :
    s.read8 addr = t.read8 addr := by
  simp only [State.read8, h]

@[simp] theorem State.setA_read8 (s : State) (v : Byte) (addr : Word) :
    (s.setA v).read8 addr = s.read8 addr := rfl

@[simp] theorem State.setX_read8 (s : State) (v : Byte) (addr : Word) :
    (s.setX v).read8 addr = s.read8 addr := rfl

@[simp] theorem State.setP_read8 (s : State) (v : Byte) (addr : Word) :
    (s.setP v).read8 addr = s.read8 addr := rfl

@[simp] theorem State.advancePc_read8 (s : State) (k : Word) (addr : Word) :
    (s.advancePc k).read8 addr = s.read8 addr := rfl

@[simp] theorem State.setRun_read8 (s : State) (r : RunState) (addr : Word) :
    (s.setRun r).read8 addr = s.read8 addr := rfl

@[simp] theorem raise_read8 (c : Cause) (s : State) (addr : Word) :
    (raise c s).read8 addr = s.read8 addr := rfl

/-- Two states with equal fields are equal. -/
theorem State.ext_fields {s t : State} (ha : s.a = t.a) (hx : s.x = t.x) (hy : s.y = t.y)
    (hp : s.p = t.p) (hpc : s.pc = t.pc) (hm : s.mem = t.mem) (hr : s.runState = t.runState) :
    s = t := by
  cases s; cases t; simp_all

end Sys2Proof.Machine
end

