-- ==== Sys2Proof/Laws/Flags.lean ====
section
/-! SUPPORT. What `SetZN` does, bit by bit (40_fetch_dispatch.md rule R63), and what it leaves alone. -/

namespace Sys2Proof.Machine

@[simp] theorem setZN_a (v : Byte) (s : State) : (setZN v s).a = s.a := rfl
@[simp] theorem setZN_x (v : Byte) (s : State) : (setZN v s).x = s.x := rfl
@[simp] theorem setZN_y (v : Byte) (s : State) : (setZN v s).y = s.y := rfl
@[simp] theorem setZN_p (v : Byte) (s : State) : (setZN v s).p = flagsZN v s.p := rfl
@[simp] theorem setZN_pc (v : Byte) (s : State) : (setZN v s).pc = s.pc := rfl
@[simp] theorem setZN_mem (v : Byte) (s : State) : (setZN v s).mem = s.mem := rfl
@[simp] theorem setZN_runState (v : Byte) (s : State) : (setZN v s).runState = s.runState := rfl
@[simp] theorem setZN_read8 (v : Byte) (s : State) (addr : Word) :
    (setZN v s).read8 addr = s.read8 addr := rfl

/-- Bit `i` of the status word after `SetZN`, as the mask writes it. -/
theorem flagsZN_getLsbD (v p : Byte) (i : Nat) :
    (flagsZN v p).getLsbD i =
      ((p.getLsbD i && (0x7D : Byte).getLsbD i) || (decide (v = 0x00) && (0x02 : Byte).getLsbD i) ||
        (v.getLsbD i && (0x80 : Byte).getLsbD i)) := by
  by_cases h : v = 0x00 <;> simp only [flagsZN, h, if_true, if_false] <;> simp

/-- The mask 0x7D picks the six bits that are kept, 0x02 the zero bit and 0x80 the negative bit. -/
theorem flag_masks : ∀ i < 8,
    (0x7D : Byte).getLsbD i = (i != 1 && i != 7) ∧ (0x02 : Byte).getLsbD i = (i == 1) ∧
      (0x80 : Byte).getLsbD i = (i == 7) := by decide

end Sys2Proof.Machine
end

