-- ==== Sys2Proof/Laws/Memory.lean ====
section
/-! SUPPORT. The laws of memory: a read after a write, every operation keeps the canonical form, and
equal reads of canonical memories are equal memories (20_memory.md rule R27). -/

namespace Sys2Proof.Machine

/-- The head of a canonical memory lies below the rest, and the rest is canonical. -/
theorem Memory.wf_cons {c : Host.Cell} {m : Memory} :
    Memory.wf (c :: m) ↔
      (∀ d ∈ m, c.1 < d.1) ∧ c.1 < Config.memSize ∧ c.2 ≠ Config.unwritten ∧ Memory.wf m := by
  simp only [Memory.wf, List.pairwise_cons, List.mem_cons, forall_eq_or_imp]
  tauto

theorem Memory.wf_nil : Memory.wf [] := ⟨List.Pairwise.nil, by simp⟩

/-- A cell that no entry lists reads as unwritten. -/
theorem Memory.read_unlisted {m : Memory} {a : Nat} (h : ∀ c ∈ m, c.1 ≠ a) :
    m.read a = Config.unwritten := by
  induction m with
  | nil => rfl
  | cons c m ih =>
    rw [Memory.read, if_neg (h c (by simp))]
    exact ih fun d hd => h d (by simp [hd])

/-- A listed cell of a canonical memory reads as its entry says. -/
theorem Memory.read_listed {m : Memory} (h : m.wf) {c : Host.Cell} (hc : c ∈ m) :
    m.read c.1 = c.2 := by
  induction m with
  | nil => simp at hc
  | cons d m ih =>
    obtain ⟨hlt, -, -, hm⟩ := Memory.wf_cons.mp h
    rcases List.mem_cons.mp hc with rfl | hc
    · simp [Memory.read]
    · rw [Memory.read, if_neg (Nat.ne_of_lt (hlt c hc))]
      exact ih hm hc

/-- A write leaves every other cell alone, in any memory. -/
theorem Memory.read_write_other {m : Memory} {a b : Nat} (h : b ≠ a) (v : Byte) :
    (m.write a v).read b = m.read b := by
  induction m with
  | nil => simp only [Memory.write]; split <;> simp [Memory.read, h.symm]
  | cons c m ih =>
    obtain ⟨k, w⟩ := c
    simp only [Memory.write]
    split
    · split <;> simp [Memory.read, h.symm]
    · split
      · next hk => subst hk; split <;> simp [Memory.read, h.symm]
      · simp only [Memory.read, ih]

/-- A write is read back, in a canonical memory. -/
theorem Memory.read_write_same {m : Memory} (hm : m.wf) (a : Nat) (v : Byte) :
    (m.write a v).read a = v := by
  induction m with
  | nil => simp only [Memory.write]; split <;> simp_all [Memory.read]
  | cons c m ih =>
    obtain ⟨k, w⟩ := c
    obtain ⟨hlt, -, -, hm'⟩ := Memory.wf_cons.mp hm
    simp only [Memory.write]
    split
    · next hk =>
      split
      · next hv =>
        rw [hv]
        refine Memory.read_unlisted fun d hd => ?_
        rcases List.mem_cons.mp hd with rfl | hd
        · exact Nat.ne_of_gt hk
        · exact Nat.ne_of_gt (Nat.lt_trans hk (hlt d hd))
      · simp [Memory.read]
    · split
      · next hk =>
        subst hk
        split
        · next hv =>
          rw [hv]
          exact Memory.read_unlisted fun d hd => Nat.ne_of_gt (hlt d hd)
        · simp [Memory.read]
      · next hk => rw [Memory.read, if_neg (Ne.symm hk), ih hm']

/-- Every entry after a write is the written one or was there before. -/
theorem Memory.mem_write {m : Memory} {a : Nat} {v : Byte} {c : Host.Cell}
    (h : c ∈ m.write a v) : (c = (a, v) ∧ v ≠ Config.unwritten) ∨ c ∈ m := by
  induction m with
  | nil => simp only [Memory.write] at h; split at h <;> simp_all
  | cons d m ih =>
    obtain ⟨k, w⟩ := d
    simp only [Memory.write] at h
    split at h
    · split at h
      · exact .inr h
      · next hv => exact (List.mem_cons.mp h).imp (fun e => ⟨e, hv⟩) id
    · split at h
      · split at h
        · exact .inr (List.mem_cons_of_mem _ h)
        · next hv =>
          exact (List.mem_cons.mp h).imp (fun e => ⟨e, hv⟩) (List.mem_cons_of_mem _)
      · rcases List.mem_cons.mp h with rfl | h
        · simp
        · rcases ih h with h | h <;> simp [h]

/-- A write inside the address space keeps the canonical form. -/
theorem Memory.wf_write {m : Memory} (hm : m.wf) {a : Nat} (ha : a < Config.memSize) (v : Byte) :
    (m.write a v).wf := by
  induction m with
  | nil =>
    simp only [Memory.write]
    split
    · exact Memory.wf_nil
    · next hv => exact Memory.wf_cons.mpr ⟨by simp, ha, hv, Memory.wf_nil⟩
  | cons c m ih =>
    obtain ⟨k, w⟩ := c
    obtain ⟨hlt, hk, hw, hm'⟩ := Memory.wf_cons.mp hm
    simp only [Memory.write]
    split
    · next hak =>
      split
      · exact hm
      · next hv =>
        refine Memory.wf_cons.mpr ⟨fun d hd => ?_, ha, hv, hm⟩
        rcases List.mem_cons.mp hd with rfl | hd
        · exact hak
        · exact Nat.lt_trans hak (hlt d hd)
    · next hak =>
      split
      · next hk' =>
        subst hk'
        split
        · exact hm'
        · next hv => exact Memory.wf_cons.mpr ⟨hlt, ha, hv, hm'⟩
      · next hne =>
        refine Memory.wf_cons.mpr ⟨fun d hd => ?_, hk, hw, ih hm'⟩
        rcases Memory.mem_write hd with ⟨rfl, -⟩ | hd
        · exact Nat.lt_of_le_of_ne (Nat.le_of_not_lt hak) (Ne.symm hne)
        · exact hlt d hd

/-- The head of a canonical memory is its lowest cell that does not read as unwritten. -/
theorem Memory.read_below_head {c : Host.Cell} {m : Memory} (h : Memory.wf (c :: m)) {a : Nat}
    (ha : a < c.1) : Memory.read (c :: m) a = Config.unwritten := by
  obtain ⟨hlt, -, -, -⟩ := Memory.wf_cons.mp h
  refine Memory.read_unlisted fun d hd => ?_
  rcases List.mem_cons.mp hd with rfl | hd
  · exact Nat.ne_of_gt ha
  · exact Nat.ne_of_gt (Nat.lt_trans ha (hlt d hd))

/-- `MemWrite` then `MemRead` of the same cell (R27). -/
theorem State.read8_write8_same {s : State} (h : s.mem.wf) (addr : Word) (v : Byte) :
    (s.write8 addr v).read8 addr = v := Memory.read_write_same h _ v

/-- `MemWrite` changes no other cell (R27). -/
theorem State.read8_write8_other (s : State) {addr b : Word} (h : b ≠ addr) (v : Byte) :
    (s.write8 addr v).read8 b = s.read8 b :=
  Memory.read_write_other (fun e => h (BitVec.eq_of_toNat_eq e)) v

/-- `MemWrite` keeps the canonical form. -/
theorem State.write8_wf {s : State} (h : s.mem.wf) (addr : Word) (v : Byte) :
    (s.write8 addr v).mem.wf := Memory.wf_write h addr.isLt v

/-- A 16-bit write keeps the canonical form (R29). -/
theorem State.write16_wf {s : State} (h : s.mem.wf) (addr w : Word) :
    (s.write16 addr w).mem.wf := State.write8_wf (State.write8_wf h _ _) _ _

/-- The memory of the reset state is canonical. -/
theorem State.reset_mem_wf : State.reset.mem.wf := Memory.wf_nil

/-- The memory of the power-on state is canonical. -/
theorem State.powerOn_mem_wf : State.powerOn.mem.wf := Memory.wf_nil

/-- Every cell of a memory that lists nothing reads as unwritten. -/
@[simp] theorem Memory.read_nil (a : Nat) : Memory.read [] a = Config.unwritten := rfl

end Sys2Proof.Machine
end

