-- ==== Sys2Proof/Laws/HostOps.lean ====
section
/-! SUPPORT. What each host operation changes and leaves alone (70_reset_and_hazards.md). -/

namespace Sys2Proof.Machine

/-- Writing bytes changes memory alone. -/
theorem writeBytes_mem_only (image : List Byte) (s : State) (addr : Word) :
    ∃ m, writeBytes s addr image = { s with mem := m } := by
  induction image generalizing s addr with
  | nil => exact ⟨s.mem, rfl⟩
  | cons b image ih => exact ih (s.write8 addr b) (addr + 1)

/-- A load changes memory alone: no register and not the run state (R114). -/
theorem loadImage_mem_only (image : List Byte) (s : State) :
    ∃ m, loadImage image s = { s with mem := m } := by
  obtain ⟨m, e⟩ := writeBytes_mem_only image s Config.programOrigin
  rw [loadImage, e]
  exact ⟨_, rfl⟩

/-- Writing bytes keeps the canonical form. -/
theorem writeBytes_wf (image : List Byte) {s : State} (h : s.mem.wf) (addr : Word) :
    (writeBytes s addr image).mem.wf := by
  induction image generalizing s addr with
  | nil => exact h
  | cons b image ih => exact ih (State.write8_wf h _ _) _

/-- A load keeps the canonical form. -/
theorem loadImage_wf (image : List Byte) {s : State} (h : s.mem.wf) :
    (loadImage image s).mem.wf := State.write16_wf (writeBytes_wf image h _) _ _

/-- Bytes written from `addr` upward leave every cell alone that is none of theirs, while they do not pass
the top of the address space. -/
theorem writeBytes_read8_other (image : List Byte) (s : State) {addr b : Word}
    (htop : addr.toNat + image.length ≤ Config.memSize)
    (hb : b.toNat < addr.toNat ∨ addr.toNat + image.length ≤ b.toNat) :
    (writeBytes s addr image).read8 b = s.read8 b := by
  induction image generalizing s addr with
  | nil => rfl
  | cons v image ih =>
    rw [List.length_cons] at htop hb
    rw [Config.memSize] at htop
    rw [writeBytes]
    have hne : b ≠ addr := by rintro rfl; omega
    cases image with
    | nil => exact State.read8_write8_other s hne v
    | cons v' image =>
      rw [List.length_cons] at htop hb
      have hadd : (addr + 1).toNat = addr.toNat + 1 := by
        rw [BitVec.toNat_add]
        exact Nat.mod_eq_of_lt (by simp; omega)
      rw [ih (s.write8 addr v) (by rw [hadd, List.length_cons, Config.memSize]; omega)
        (by rw [hadd, List.length_cons]; omega)]
      exact State.read8_write8_other s hne v

/-- Bytes written from `addr` upward are read back at their places, while they do not pass the top of the
address space. -/
theorem writeBytes_read8_image (image : List Byte) {s : State} (h : s.mem.wf) {addr b : Word}
    (htop : addr.toNat + image.length ≤ Config.memSize) {i : Nat} (hi : i < image.length)
    (hb : b.toNat = addr.toNat + i) :
    (writeBytes s addr image).read8 b = image.getD i 0x00 := by
  induction image generalizing s addr i with
  | nil => simp at hi
  | cons v image ih =>
    rw [List.length_cons] at htop hi
    rw [Config.memSize] at htop
    rw [writeBytes]
    cases image with
    | nil =>
      have hi0 : i = 0 := by rw [List.length_nil] at hi; omega
      subst hi0
      have hba : b = addr := BitVec.eq_of_toNat_eq (by omega)
      rw [hba]
      exact State.read8_write8_same h addr v
    | cons v' image =>
      rw [List.length_cons] at htop hi
      have hadd : (addr + 1).toNat = addr.toNat + 1 := by
        rw [BitVec.toNat_add]
        exact Nat.mod_eq_of_lt (by simp; omega)
      have htop' : (addr + 1).toNat + (v' :: image).length ≤ Config.memSize := by
        rw [hadd, List.length_cons, Config.memSize]; omega
      cases i with
      | zero =>
        have hba : b = addr := BitVec.eq_of_toNat_eq (by omega)
        rw [writeBytes_read8_other _ _ htop' (.inl (by omega)), hba]
        exact State.read8_write8_same h addr v
      | succ i =>
        rw [List.getD_cons_succ]
        exact ih (State.write8_wf h _ _) htop' (by rw [List.length_cons]; omega) (by omega)

/-- The vector after a load: its low byte (R114). -/
theorem loadImage_vector_low (image : List Byte) {s : State} (h : s.mem.wf) :
    (loadImage image s).read8 0xFFFC = 0x00 := by
  rw [loadImage, State.write16, State.read8_write8_other _ (by decide)]
  exact State.read8_write8_same (writeBytes_wf image h _) _ _

/-- The vector after a load: its high byte (R114). -/
theorem loadImage_vector_high (image : List Byte) {s : State} (h : s.mem.wf) :
    (loadImage image s).read8 0xFFFD = 0x80 :=
  State.read8_write8_same (State.write8_wf (writeBytes_wf image h _) _ _) _ _

/-- A load beside the vector is the write of the image. -/
theorem loadImage_read8_beside_vector (image : List Byte) (s : State) {a : Word}
    (h1 : a ≠ 0xFFFC) (h2 : a ≠ 0xFFFD) :
    (loadImage image s).read8 a = (writeBytes s Config.programOrigin image).read8 a := by
  have h2' : a ≠ Config.resetVector + 1 := h2
  have h1' : a ≠ Config.resetVector := h1
  rw [loadImage, State.write16, State.read8_write8_other _ h2', State.read8_write8_other _ h1']

/-- A host move with a next state comes from a run state in which it has a move (R120), and is its
effect. -/
theorem hostMove_next {mv : HostMove} {s t : State} (h : hostMove mv s = .next t) :
    hostHasMove s.runState mv = true ∧ hostEffect mv s = .next t := by
  unfold hostMove at h
  split at h
  · exact ⟨‹_›, h⟩
  · cases h

/-- An image that `load` accepts has at most 0x8000 bytes (R114). -/
theorem wellFormedImage_length {image : List Byte} (h : wellFormedImage image = true) :
    image.length ≤ 0x8000 := by
  rw [wellFormedImage, decide_eq_true_eq] at h
  exact h

/-- What a host effect with a next state is, one case per operation; the whole of what the host can do. -/
theorem hostEffect_cases {mv : HostMove} {s t : State} (h : hostEffect mv s = .next t) :
    (∃ image, mv = .load image ∧ image.length ≤ 0x8000 ∧ t = loadImage image s) ∨
    (mv = .reset ∧ t = resetCore s) ∨
    (mv = .run ∧ t = enterRun s) ∨
    (∃ image, mv = .loadAndRun image ∧ image.length ≤ 0x8000 ∧
      t = enterRun (resetCore (loadImage image s))) ∨
    (∃ addr v, mv = .memWrite addr v ∧ t = s.write8 addr v) := by
  cases mv with
  | load image =>
    simp only [hostEffect] at h
    split at h
    · next hw => cases h; exact .inl ⟨image, rfl, wellFormedImage_length hw, rfl⟩
    · cases h
  | reset => cases h; exact .inr (.inl ⟨rfl, rfl⟩)
  | run => cases h; exact .inr (.inr (.inl ⟨rfl, rfl⟩))
  | loadAndRun image =>
    simp only [hostEffect] at h
    split at h
    · next hw =>
      cases h
      exact .inr (.inr (.inr (.inl ⟨image, rfl, wellFormedImage_length hw, rfl⟩)))
    · cases h
  | memWrite addr v => cases h; exact .inr (.inr (.inr (.inr ⟨addr, v, rfl, rfl⟩)))

end Sys2Proof.Machine
end

