-- ==== Sys2Proof/Laws/Operands.lean ====
section
/-! SUPPORT. The value of each operand form's address (41_addressing.md), and what the resolver reads. -/

namespace Sys2Proof.Machine

/-- `zext_16` keeps the value (00_scope.md rule R6). -/
theorem zext16_toNat (v : Byte) : (zext16 v).toNat = v.toNat := by
  have := v.isLt
  simp only [zext16, BitVec.toNat_setWidth]
  omega

/-- A ZeroPage address is the operand byte, so it stays in the zero page (R70). -/
theorem eaZeroPage_toNat (d8 : Byte) : (eaZeroPage d8).toNat = d8.toNat := zext16_toNat d8

/-- An indexed zero-page address wraps inside the zero page (R71, R73). -/
theorem eaZeroPageIndexed_toNat (d8 i : Byte) :
    (eaZeroPageIndexed d8 i).toNat = (d8.toNat + i.toNat) % 256 := by
  rw [eaZeroPageIndexed, zext16_toNat, BitVec.toNat_add]

/-- An indexed absolute address carries into the high byte and wraps at the top (R74, R75). -/
theorem eaAbsoluteIndexed_toNat (a16 : Word) (i : Byte) :
    (eaAbsoluteIndexed a16 i).toNat = (a16.toNat + i.toNat) % 65536 := by
  rw [eaAbsoluteIndexed, BitVec.toNat_add, zext16_toNat]

/-- A 16-bit read is little-endian (20_memory.md rule R28). -/
theorem State.read16_toNat (s : State) (addr : Word) :
    (s.read16 addr).toNat = (s.read8 (addr + 1)).toNat * 256 + (s.read8 addr).toNat :=
  concat16_toNat _ _

/-- The wrap parameter reaches one mode only (R77). -/
theorem resolveWith_wrap_irrelevant {mode : AddrMode} (h : mode ≠ .indirectY) (s : State) :
    resolveWith true mode s = resolveWith false mode s := by
  cases mode with
  | indirectY => exact absurd rfl h
  | _ => rfl

/-- Every mode but None resolves (R68, R78). -/
theorem resolveWith_ok {mode : AddrMode} (h : mode ≠ .none) (wrap : Bool) (s : State) :
    ∃ ea, resolveWith wrap mode s = .ok ea := by
  cases mode with
  | none => exact absurd rfl h
  | _ => exact ⟨_, rfl⟩

end Sys2Proof.Machine
end

