-- ==== Sys2Proof/Laws/PerInstr.lean ====
section
/-! SUPPORT. Statements made for every instruction, one lemma per constructor: the shape of its encoding
(30_encoding.md rules R45, R46, R49). -/

namespace Sys2Proof.Laws.EncodeShape

/-- The encoding is the opcode byte, which is one of the eight, followed by as many operand bytes as the
mode has, and its bytes are well formed as one instruction. -/
def Statement (i : Instr) : Prop :=
  (encode i).head? = some i.opcode ∧ isOpcode i.opcode = true ∧
    (encode i).length = 1 + i.mode.operandBytes ∧ wellFormedBytes (encode i) = true

theorem brk : Statement .brk := ⟨rfl, rfl, rfl, rfl⟩
theorem tax : Statement .tax := ⟨rfl, rfl, rfl, rfl⟩
theorem inx : Statement .inx := ⟨rfl, rfl, rfl, rfl⟩
theorem ldaImm (d8 : Byte) : Statement (.ldaImm d8) := ⟨rfl, rfl, rfl, rfl⟩
theorem ldaZp (d8 : Byte) : Statement (.ldaZp d8) := ⟨rfl, rfl, rfl, rfl⟩
theorem ldaAbs (a16 : Word) : Statement (.ldaAbs a16) := ⟨rfl, rfl, rfl, rfl⟩
theorem staZp (d8 : Byte) : Statement (.staZp d8) := ⟨rfl, rfl, rfl, rfl⟩
theorem staZpX (d8 : Byte) : Statement (.staZpX d8) := ⟨rfl, rfl, rfl, rfl⟩

end Sys2Proof.Laws.EncodeShape
end

