-- ==== Sys2Proof/Laws/Step.lean ====
section
/-! SUPPORT. What a load, a store, an instruction and a step can do, each said once. -/

namespace Sys2Proof.Machine

/-- A load's next state, field by field. -/
theorem loadA_eq (v : Byte) (k : Word) (s : State) :
    loadA v k s = { s with a := v, p := flagsZN v s.p, pc := s.pc + k } := rfl

/-- A store's next state, field by field. -/
theorem storeA_eq (ea k : Word) (s : State) :
    storeA ea k s = { s with mem := s.mem.write ea.toNat s.a, pc := s.pc + k } := rfl

/-- What a write of X does, field by field. -/
theorem writeX_eq (v : Byte) (s : State) :
    writeX v s = { s with x := v, p := flagsZN v s.p } := rfl

/-- A step that has a next state starts from Running. -/
theorem step_next_running {s t : State} (h : step s = .next t) : s.runState = .running := by
  unfold step at h
  split at h
  · assumption
  all_goals cases h

/-- A step of a running core, with the fetch already decoded to one of its cases. -/
theorem step_of_fetch {s : State} (h : s.runState = .running) :
    step s = match fetchInstr s with
      | some i => exec i (afterFetch s)
      | none => .next (unsupportedOpcode s) := by
  cases hf : fetchInstr s <;> simp only [step, h, hf]

/-- The fetch is the switch on the byte at PC with the two bytes after it. -/
theorem fetchInstr_eq (s : State) :
    fetchInstr s = decodeOp (s.read8 s.pc) (s.read8 (s.pc + 1)) (s.read8 (s.pc + 2)) := by
  unfold fetchInstr codeBytes
  rw [decode_three]
  split <;> split at * <;> simp_all

/-- Two addresses after PC, as the address after the operand address. -/
theorem pc_add_two (pc : Word) : pc + 1 + 1 = pc + 2 := by
  rw [BitVec.add_assoc]; rfl

/-- Three addresses after PC. -/
theorem pc_add_three (pc : Word) : pc + 1 + 2 = pc + 3 := by
  rw [BitVec.add_assoc]; rfl

/-- A step of a running core answers a next state, one case per opcode byte and one for the illegal
bytes; the whole of what a step can do. -/
theorem step_cases {s : State} (h : s.runState = .running) :
    (s.read8 s.pc = 0x00 ∧
      step s = .next { s with pc := s.pc + 1, runState := .halted }) ∨
    (s.read8 s.pc = 0xAA ∧
      step s = .next { s with x := s.a, p := flagsZN s.a s.p, pc := s.pc + 1 }) ∨
    (s.read8 s.pc = 0xE8 ∧
      step s = .next { s with x := s.x + 1, p := flagsZN (s.x + 1) s.p, pc := s.pc + 1 }) ∨
    (s.read8 s.pc = 0xA9 ∧
      step s = .next { s with
        a := s.read8 (s.pc + 1), p := flagsZN (s.read8 (s.pc + 1)) s.p, pc := s.pc + 2 }) ∨
    (s.read8 s.pc = 0xA5 ∧
      step s = .next { s with
        a := s.read8 (zext16 (s.read8 (s.pc + 1))),
        p := flagsZN (s.read8 (zext16 (s.read8 (s.pc + 1)))) s.p, pc := s.pc + 2 }) ∨
    (s.read8 s.pc = 0xAD ∧
      step s = .next { s with
        a := s.read8 (s.read16 (s.pc + 1)),
        p := flagsZN (s.read8 (s.read16 (s.pc + 1))) s.p, pc := s.pc + 3 }) ∨
    (s.read8 s.pc = 0x85 ∧
      step s = .next { s with
        mem := s.mem.write (zext16 (s.read8 (s.pc + 1))).toNat s.a, pc := s.pc + 2 }) ∨
    (s.read8 s.pc = 0x95 ∧
      step s = .next { s with
        mem := s.mem.write (zext16 (s.read8 (s.pc + 1) + s.x)).toNat s.a, pc := s.pc + 2 }) ∨
    (isOpcode (s.read8 s.pc) = false ∧
      step s = .next { s with
        pc := s.pc + 1, runState := .faulted (.unsupportedOpcode (s.read8 s.pc)) }) := by
  rw [step_of_fetch h, fetchInstr_eq]
  rcases decodeOp_cases (s.read8 s.pc) (s.read8 (s.pc + 1)) (s.read8 (s.pc + 2)) with
    ⟨hb, e⟩ | ⟨hb, e⟩ | ⟨hb, e⟩ | ⟨hb, e⟩ | ⟨hb, e⟩ | ⟨hb, e⟩ | ⟨hb, e⟩ | ⟨hb, e⟩ | ⟨hb, e⟩ <;>
    rw [e]
  · exact .inl ⟨hb, rfl⟩
  · exact .inr (.inl ⟨hb, rfl⟩)
  · exact .inr (.inr (.inl ⟨hb, rfl⟩))
  · refine .inr (.inr (.inr (.inl ⟨hb, ?_⟩)))
    simp only [exec, execLdaImm, loadA_eq, afterFetch, State.advancePc, pc_add_two]
  · refine .inr (.inr (.inr (.inr (.inl ⟨hb, ?_⟩))))
    simp only [exec, execLdaZp, loadA_eq, afterFetch, State.advancePc, pc_add_two, eaZeroPage]
    rfl
  · refine .inr (.inr (.inr (.inr (.inr (.inl ⟨hb, ?_⟩)))))
    simp only [exec, execLdaAbs, loadA_eq, afterFetch, State.advancePc, pc_add_three,
      State.read16, pc_add_two]
    rfl
  · refine .inr (.inr (.inr (.inr (.inr (.inr (.inl ⟨hb, ?_⟩))))))
    simp only [exec, execStaZp, storeA_eq, afterFetch, State.advancePc, pc_add_two, eaZeroPage]
  · refine .inr (.inr (.inr (.inr (.inr (.inr (.inr (.inl ⟨hb, ?_⟩)))))))
    simp only [exec, execStaZpX, storeA_eq, afterFetch, State.advancePc, pc_add_two,
      eaZeroPageIndexed]
  · exact .inr (.inr (.inr (.inr (.inr (.inr (.inr (.inr ⟨hb, rfl⟩)))))))

end Sys2Proof.Machine
end

