-- ==== Sys2Proof/Machine/Assembly.lean ====
section
/-! DEFINITION. The assembler text of an instruction (30_encoding.md rule R57, D13). PRESUMED (log 16): the
notation is customary 6502 syntax, by the spec's own mark; the byte sequences, not this text, are
normative, and no step reads it. -/

namespace Sys2Proof.Machine

/-- One hexadecimal digit, capitals as the spec writes them. -/
def hexDigit (n : Nat) : Char :=
  ['0', '1', '2', '3', '4', '5', '6', '7', '8', '9', 'A', 'B', 'C', 'D', 'E', 'F'].getD n '0'

/-- Two hexadecimal digits of a byte. -/
def hexByte (b : Byte) : List Char := [hexDigit (b.toNat / 16), hexDigit (b.toNat % 16)]

/-- The characters of an instruction's text, by the table of R57: a two-digit address is the zero-page
form, a four-digit one the absolute form. -/
def asmChars : Instr → List Char
  | .brk => ['B', 'R', 'K']
  | .tax => ['T', 'A', 'X']
  | .inx => ['I', 'N', 'X']
  | .ldaImm d8 => ['L', 'D', 'A', ' ', '#', '$'] ++ hexByte d8
  | .ldaZp d8 => ['L', 'D', 'A', ' ', '$'] ++ hexByte d8
  | .ldaAbs a16 => ['L', 'D', 'A', ' ', '$'] ++ hexByte (highByte a16) ++ hexByte (lowByte a16)
  | .staZp d8 => ['S', 'T', 'A', ' ', '$'] ++ hexByte d8
  | .staZpX d8 => ['S', 'T', 'A', ' ', '$'] ++ hexByte d8 ++ [',', 'X']

/-- The assembler text of an instruction (R57). -/
def asm (i : Instr) : String := String.ofList (asmChars i)

end Sys2Proof.Machine
end

