-- ==== Sys2Proof/Tests/Slice0.lean ====
section
/-! SUPPORT. Tests whose expected results come from the spec (the vectors of 95_test_vectors.md, by their
ids, and words written out from 30_encoding.md), the smoke tests of WellFormed, and for every statement
with hypotheses a concrete state that meets them. -/

namespace Sys2Proof.Tests

open Sys2Proof Sys2Proof.Machine

/-- A running core at `pc` with `bytes` there and nothing else in memory. -/
def at_ (pc : Word) (bytes : List Byte) : State :=
  writeBytes { State.powerOn with pc := pc, runState := .running } pc bytes

/-- A cell written beside the code. -/
def withCell (s : State) (a : Word) (v : Byte) : State := s.write8 a v

/-- The next state of an outcome, or nothing. -/
def next? : Host.Outcome State Fault Refusal → Option State
  | .next t => some t
  | .fault _ => none
  | .refused _ => none

/-- A, X, P and PC of the next state of a step. -/
def regs (s : State) : Option (Byte × Byte × Byte × Word) :=
  (next? (step s)).map fun t => (t.a, t.x, t.p, t.pc)

/-- A cell, P and PC of the next state of a step. -/
def cell (s : State) (a : Word) : Option (Byte × Byte × Word) :=
  (next? (step s)).map fun t => (t.read8 a, t.p, t.pc)

/-- The run state, P and PC of the next state of a step. -/
def stops (s : State) : Option (RunState × Byte × Word) :=
  (next? (step s)).map fun t => (t.runState, t.p, t.pc)

/-! ### WellFormed: an ill-formed term for each check is refused -/

/-- R52: every operand value is legal, the extremes too. -/
theorem test_instr_wellFormed :
    Instr.wellFormed (.ldaAbs 0xFFFF) = true ∧ Instr.wellFormed (.staZpX 0x00) = true := by decide

/-- An illegal opcode byte, a missing operand byte, a byte too many, and no byte at all (R48, R51). -/
theorem test_wellFormedBytes_refuses :
    wellFormedBytes [0xEA] = false ∧ wellFormedBytes [0xA9] = false ∧
      wellFormedBytes [0xAD, 0x34] = false ∧ wellFormedBytes [0x00, 0x00] = false ∧
      wellFormedBytes [] = false ∧ wellFormedBytes [0xAD, 0x34, 0x12] = true := by decide

/-- H7: an image of 0x8001 bytes is refused, H6: one of 0x8000 bytes is accepted (R114). -/
theorem test_wellFormedImage_refuses :
    wellFormedImage (List.replicate 0x8001 0xE8) = false ∧
      wellFormedImage (List.replicate 0x8000 0xE8) = true := by
  unfold wellFormedImage
  rw [List.length_replicate, List.length_replicate]
  decide

/-- A row whose length is not 1 plus its operand bytes: the length 2 of a full 6502's BRK (R55, N6). -/
theorem test_descriptor_refuses :
    Descriptor.wellFormed ⟨0x00, .brk, 2, 7, .none⟩ = false := by decide

/-- A table with two rows of one opcode byte (R49). -/
theorem test_wellFormedTable_refuses :
    wellFormedTable [⟨0xAA, .tax, 1, 2, .none⟩, ⟨0xAA, .inx, 1, 2, .none⟩] = false ∧
      wellFormedTable opcodeTable = true := by decide

/-- Memories that are not canonical: falling addresses, an unwritten value, an address outside. -/
theorem test_memory_wf_refuses :
    ¬ Memory.wf [(2, 1), (1, 1)] ∧ ¬ Memory.wf [(1, 0)] ∧ ¬ Memory.wf [(65536, 1)] ∧
      Memory.wf [(0, 1), (65535, 1)] := by decide

/-! ### Decoding: one word per row, written out from R46 and R49 -/

theorem test_decode_brk : decodeTableWord 8 0b00000000 = some .brk := by decide
theorem test_decode_tax : decodeTableWord 8 0b10101010 = some .tax := by decide
theorem test_decode_inx : decodeTableWord 8 0b11101000 = some .inx := by decide
theorem test_decode_ldaImm :
    decodeTableWord 16 0b00000101_10101001 = some (.ldaImm 0x05) := by decide
theorem test_decode_ldaZp :
    decodeTableWord 16 0b00010000_10100101 = some (.ldaZp 0x10) := by decide
theorem test_decode_ldaAbs :
    decodeTableWord 24 0b00010010_00110100_10101101 = some (.ldaAbs 0x1234) := by decide
theorem test_decode_staZp :
    decodeTableWord 16 0b00010000_10000101 = some (.staZp 0x10) := by decide
theorem test_decode_staZpX :
    decodeTableWord 16 0b10010000_10010101 = some (.staZpX 0x90) := by decide

/-- R51: a byte of a full 6502's LDX is illegal, and the operand bytes of LDA Absolute cannot be missing. -/
theorem test_decode_refuses :
    decode [0xA2, 0x00] = .error (.unsupportedOpcode 0xA2) ∧
      decode [0xAD, 0x34] = .error (.truncated 0xAD) ∧ decode [] = .error .noBytes := ⟨rfl, rfl, rfl⟩

/-- B9: nothing else is in the metadata table. -/
theorem test_lookup_none :
    lookup 0x01 = none ∧ lookup 0xEA = none ∧ lookup 0xFF = none := by decide

/-- The forms of R57: the operand of `LDA $1234` is `34 12` in memory (20_memory.md rule R30). -/
theorem test_asm :
    asmChars (.ldaAbs 0x1234) = ['L', 'D', 'A', ' ', '$', '1', '2', '3', '4'] ∧
      asmChars (.staZpX 0x90) = ['S', 'T', 'A', ' ', '$', '9', '0', ',', 'X'] := by decide

/-! ### The flag generator and memory -/

/-- F9, F10, F11: the six other bits are kept. -/
theorem test_setZN_keeps_reserved :
    flagsZN 0x00 0x7D = 0x7F ∧ flagsZN 0x01 0xFF = 0x7D ∧ flagsZN 0x80 0x7D = 0xFD := by decide

/-- M5, M6: a 16-bit access at 0xFFFF wraps. -/
theorem test_word_access_wraps :
    (State.powerOn.write16 0xFFFF 0x1234).read8 0xFFFF = 0x34 ∧
      (State.powerOn.write16 0xFFFF 0x1234).read8 0x0000 = 0x12 ∧
      (State.powerOn.write16 0xFFFF 0x1234).read16 0xFFFF = 0x1234 := by decide

/-- M8: a plain 16-bit read does not wrap in the zero page. -/
theorem test_word_read_leaves_zero_page :
    (at_ 0xFF [0x11, 0x22]).read16 0x00FF = 0x2211 := by decide

/-! ### The resolver -/

/-- A5 (source S-P4), A8: the index wraps inside the zero page. -/
theorem test_resolve_zeroPage_indexed :
    (resolve .zeroPageX { at_ 0x8001 [0xFF] with x := 0x01 }).toOption = some 0x0000 ∧
      (resolve .zeroPageY { at_ 0x8001 [0xFF] with y := 0x02 }).toOption = some 0x0001 := by decide

/-- A10, A13: Absolute wraps its read, Absolute_X its sum. -/
theorem test_resolve_absolute_wraps :
    (resolve .absolute (at_ 0xFFFF [0x34, 0x12])).toOption = some 0x1234 ∧
      (resolve .absoluteX { at_ 0x8001 [0xFF, 0xFF] with x := 0x02 }).toOption = some 0x0001 := by
  decide

/-- A16: the pointer of Indirect_X wraps in the zero page. -/
theorem test_resolve_indirectX_wraps :
    (resolve .indirectX
      { withCell (withCell (withCell (at_ 0x8001 [0xFE]) 0xFF 0xCD) 0x00 0xAB) 0x0100 0x99
        with x := 0x01 }).toOption = some 0xABCD := by decide

/-- A20: the two values of INDY_ZP_WRAP. -/
theorem test_resolve_indirectY_wrap :
    (resolveWith true .indirectY
      (withCell (withCell (withCell (at_ 0x8001 [0xFF]) 0xFF 0xCD) 0x00 0xAB) 0x0100 0x99)).toOption
        = some 0xABCD ∧
    (resolveWith false .indirectY
      (withCell (withCell (withCell (at_ 0x8001 [0xFF]) 0xFF 0xCD) 0x00 0xAB) 0x0100 0x99)).toOption
        = some 0x99CD := by decide

/-! ### The instructions, one step each -/

/-- L3. -/
theorem test_ldaImm_negative :
    regs { at_ 0x8000 [0xA9, 0x80] with p := 0x02 } = some (0x80, 0x00, 0x80, 0x8002) := by decide

/-- L6: the opcode at 0xFFFF, the operand at 0x0000. -/
theorem test_ldaImm_straddles :
    regs (at_ 0xFFFF [0xA9, 0x80]) = some (0x80, 0x00, 0x80, 0x0001) := by decide

/-- L9: the address is 0x00FF, not sign-extended. -/
theorem test_ldaZp_top :
    regs (withCell (withCell (at_ 0x8000 [0xA5, 0xFF]) 0x00FF 0x9C) 0xFFFF 0x11) =
      some (0x9C, 0x00, 0x80, 0x8002) := by decide

/-- L8: a cell never written. -/
theorem test_ldaZp_unwritten :
    regs (at_ 0x8000 [0xA5, 0x20]) = some (0x00, 0x00, 0x02, 0x8002) := by decide

/-- L10. -/
theorem test_ldaAbs_littleEndian :
    regs (withCell (at_ 0x8000 [0xAD, 0x34, 0x12]) 0x1234 0x80) =
      some (0x80, 0x00, 0x80, 0x8003) := by decide

/-- L15: the opcode at 0xFFFE. -/
theorem test_ldaAbs_straddles :
    regs (withCell (at_ 0xFFFE [0xAD, 0x34, 0x12]) 0x1234 0x42) =
      some (0x42, 0x00, 0x00, 0x0001) := by decide

/-- T2: storing zero does not set Z. -/
theorem test_staZp_zero :
    cell { withCell (at_ 0x8000 [0x85, 0x10]) 0x10 0x77 with p := 0x80 } 0x10 =
      some (0x00, 0x80, 0x8002) := by decide

/-- T8: a store to its own operand byte uses the old operand. -/
theorem test_staZp_own_operand :
    cell { at_ 0x0000 [0x85, 0x01] with a := 0x99 } 0x01 = some (0x99, 0x00, 0x0002) := by decide

/-- T5: the index wraps to 0x0000. -/
theorem test_staZpX_wraps :
    cell { at_ 0x8000 [0x95, 0xFF] with a := 0x77, x := 0x01 } 0x00 =
      some (0x77, 0x00, 0x8002) := by decide

/-- T5, T7: 0x0100 is not written; a large index wraps too. -/
theorem test_staZpX_no_carry :
    cell { at_ 0x8000 [0x95, 0xFF] with a := 0x77, x := 0x01 } 0x0100 = some (0x00, 0x00, 0x8002) ∧
      cell { at_ 0x8000 [0x95, 0x80] with a := 0x34, x := 0xFF } 0x7F =
        some (0x34, 0x00, 0x8002) := by decide

/-- X2: the flags are recomputed, not copied. -/
theorem test_tax_zero :
    regs { at_ 0x8000 [0xAA] with x := 0x55, p := 0x80 } = some (0x00, 0x00, 0x02, 0x8001) := by
  decide

/-- X3. -/
theorem test_tax_negative :
    regs { at_ 0x8000 [0xAA] with a := 0x80, p := 0x02 } = some (0x80, 0x80, 0x80, 0x8001) := by
  decide

/-- X7: the wrap. -/
theorem test_inx_wraps :
    regs { at_ 0x8000 [0xE8] with x := 0xFF, p := 0x80 } = some (0x00, 0x00, 0x02, 0x8001) := by
  decide

/-- X10: the fetch at 0xFFFF. -/
theorem test_inx_at_top :
    regs { at_ 0xFFFF [0xE8] with x := 0x01 } = some (0x00, 0x02, 0x00, 0x0000) := by decide

/-- B2: BRK at 0xFFFF changes no flag. -/
theorem test_brk_at_top :
    stops { at_ 0xFFFF [0x00] with p := 0x80 } = some (.halted, 0x80, 0x0000) := by decide

/-- B3. -/
theorem test_illegal_ea :
    stops (at_ 0x8002 [0xEA]) = some (.faulted (.unsupportedOpcode 0xEA), 0x00, 0x8003) := by decide

/-- B5. -/
theorem test_illegal_at_top :
    stops (at_ 0xFFFF [0x02]) = some (.faulted (.unsupportedOpcode 0x02), 0x00, 0x0000) := by decide

/-- The host's placement of a table word is run by the very next step. -/
theorem test_withFetchWord_runs :
    (next? (step (State.reset.withFetchWord 16 0x05A9))).map (fun t => (t.a, t.pc)) =
      some (0x05, 0x0002) := by decide

/-- The step is the pseudocode on a store whose address wraps (T5). -/
theorem test_pseudo_staZpX :
    next? (step { at_ 0x8000 [0x95, 0xFF] with a := 0x77, x := 0x01 }) =
      some (pseudoStep { at_ 0x8000 [0x95, 0xFF] with a := 0x77, x := 0x01 }) := by decide

/-! ### The host -/

/-- H3, H4: load, then reset. -/
theorem test_load_reset :
    (next? (hostMove .reset (loadImage [0xA9, 0x05, 0x00] State.powerOn))).map
      (fun t => (t.pc, t.read8 0x8001, t.runState)) = some (0x8000, 0x05, .stopped) := by decide

/-- H8: a vector the host wrote. -/
theorem test_reset_vector :
    (resetCore ((State.powerOn.write8 0xFFFC 0x34).write8 0xFFFD 0x12)).pc = 0x1234 := by decide

/-- H11: reset leaves Y. -/
theorem test_reset_leaves_y : (resetCore { State.powerOn with y := 0x33 }).y = 0x33 := by decide

/-- H12: `run` has no move in Halted. -/
theorem test_run_from_halted :
    next? (hostMove .run { State.powerOn with runState := .halted }) = none := by decide

/-! ### Witnesses: a state and operands that meet the hypotheses of each statement -/

theorem witness_BytesDecodeExactlyFromTheEncoding :
    Instr.wellFormed (.ldaAbs 0xFFFF) = true ∧
      (decode [0xAD, 0xFF, 0xFF, 0x01]).toOption = some (.ldaAbs 0xFFFF, [0x01]) := by decide

theorem witness_LookupKnowsExactlyTheImplementedOpcodes :
    (lookup 0x95).isSome = true ∧ lookup 0x96 = none ∧
      (at_ 0 [0x96]).runState = .running ∧ lookup ((at_ 0 [0x96]).read8 0) = none := by decide

theorem witness_MetadataAgreesWithTheDecoder :
    (decode [0x95, 0xFF, 0x07]).toOption = some (.staZpX 0xFF, [0x07]) := by decide

theorem witness_ByteWriteIsReadBackAndChangesNoOtherCell :
    (at_ 0xFFFF [0x01]).mem.wf ∧ (0x0000 : Word) ≠ 0xFFFF := by decide

theorem witness_WordAccessIsLittleEndianAndWraps :
    (at_ 0xFFFF [0x01, 0x02]).mem.wf ∧ (0x0001 : Word) ≠ 0xFFFF ∧ (0x0001 : Word) ≠ 0xFFFF + 1 := by
  decide

theorem witness_CanonicalMemoriesThatReadAlikeAreEqual :
    Memory.wf [(3, 5), (65535, 1)] ∧
      ∀ a : Word, Memory.read [(3, 5), (65535, 1)] a.toNat =
        Memory.read ([(3, 5)] ++ [(65535, 1)]) a.toNat := ⟨by decide, fun _ => rfl⟩

/-- A store, and one cell each of the host's writers. -/
theorem witness_OnlyTheListedWritersChangeMemory :
    (next? (move .core { at_ 0 [0x85, 0xFF] with a := 1 })).map (·.read8 0xFF) = some 1 ∧
      (next? (move .core { at_ 0 [0x95, 0xFF] with a := 1, x := 3 })).map (·.read8 0x02) = some 1 ∧
      (next? (move (.host (.memWrite 0xFFFF 1)) State.powerOn)).map (·.read8 0xFFFF) = some 1 ∧
      (next? (move (.host (.load [1])) State.powerOn)).map (·.read8 0xFFFD) = some 0x80 ∧
      (next? (move (.host (.loadAndRun [1])) State.powerOn)).map (·.read8 0x8000) = some 1 := by
  decide

theorem witness_NoStepWritesOutsideTheZeroPage :
    (next? (step (at_ 0 [0x95, 0xFF]))).isSome = true ∧ 0x0100 ≤ (0x0100 : Word).toNat := by decide

/-- STA ZeroPage at 0x0010 into 0x0012, with A an INX opcode, and with A illegal. -/
theorem witness_StoreIsSeenByTheNextFetch :
    let s := { at_ 0x10 [0x85, 0x12] with a := 0xE8 }
    s.mem.wf ∧ s.runState = .running ∧ s.read8 s.pc = 0x85 ∧
      eaZeroPage (s.read8 (s.pc + 1)) = s.pc + 2 ∧
      (decode [s.a, s.read8 (s.pc + 3), s.read8 (s.pc + 4)]).toOption.isSome = true ∧
      (0xEA : Byte) ∉ ([0x00, 0x85, 0x95, 0xA5, 0xA9, 0xAA, 0xAD, 0xE8] : List Byte) := by decide

/-- STA ZeroPage_X at 0x0010 into 0x0012, the index wrapping, with A zero over an illegal byte. -/
theorem witness_StoreIsSeenByTheNextFetch_indexed :
    let s := { at_ 0x10 [0x95, 0xFF, 0xEA] with a := 0x00, x := 0x13 }
    s.mem.wf ∧ s.runState = .running ∧ s.read8 s.pc = 0x95 ∧
      eaZeroPageIndexed (s.read8 (s.pc + 1)) s.x = s.pc + 2 ∧
      (next? (step s)).map (fun t => t.read8 t.pc) = some 0x00 := by decide

/-- The three ranges of the outcome by value, at their ends. -/
theorem witness_FlagGeneratorRewritesOnlyZeroAndNegative :
    1 ≤ (0x01 : Byte).toNat ∧ (0x7F : Byte).toNat ≤ 0x7F ∧ 0x80 ≤ (0x80 : Byte).toNat ∧
      0x80 ≤ (0xFF : Byte).toNat := by decide

theorem witness_StepRunsTheDecodedInstruction :
    (at_ 0xFFFE [0xAD, 0x34, 0x12]).runState = .running ∧
      (decode (codeBytes (at_ 0xFFFE [0xAD, 0x34, 0x12]))).toOption =
        some (.ldaAbs 0x1234, []) := by decide

/-- For the statements whose one hypothesis is that the core is Running: StepIsThePseudocodeOfTheSpec and
RunningCoreAlwaysHasANextState, on BRK, on an illegal byte and on a load. -/
theorem witness_running_core :
    (at_ 0 [0x00]).runState = .running ∧ (at_ 0 [0xFF]).runState = .running ∧
      (at_ 0 [0xA5, 0xFF]).runState = .running := by decide

theorem witness_CoreHasNoMoveUnlessRunning :
    State.powerOn.runState = .stopped ∧
      (State.powerOn.setRun .halted).runState = .halted ∧
      (raise .invalidAddressingMode State.powerOn).runState = .faulted .invalidAddressingMode ∧
      (next? (step (at_ 0 [0x00]))).isSome = true := by decide

/-- A step with an opcode of each length, and each host operation that leaves PC. -/
theorem witness_PcAdvancesByTheInstructionLength :
    (next? (step (at_ 0xFFFF [0xAD]))).map (·.pc) = some 0x0002 ∧
      (next? (step (at_ 0xFFFF [0x95]))).map (·.pc) = some 0x0001 ∧
      (next? (step (at_ 0xFFFF [0x02]))).map (·.pc) = some 0x0000 ∧
      (next? (hostMove (.load []) State.powerOn)).isSome = true ∧
      (next? (hostMove (.memWrite 0 1) State.powerOn)).isSome = true ∧
      (next? (hostMove .run State.powerOn)).isSome = true := by decide

theorem witness_InstructionStraddlesTheTopOfMemory :
    let s := at_ 0xFFFE [0xAD, 0x34, 0x12]
    s.runState = .running ∧ s.pc = 0xFFFE ∧ s.read8 0xFFFE = 0xAD ∧
      (0x1234 : Word).toNat = (s.read8 0x0000).toNat * 256 + (s.read8 0xFFFF).toNat := by decide

/-- For the statements about a step with a next state: StepChangesOnlyTheRegistersItsOpcodeNames, NoStepReadsY
and NoStepReadsTheStatusRegister; A, X and P do change in some. -/
theorem witness_step_with_next_state :
    regs (at_ 0 [0xA9, 0x80]) = some (0x80, 0x00, 0x80, 0x0002) ∧
      regs { at_ 0 [0xAA] with a := 0x01 } = some (0x01, 0x01, 0x00, 0x0001) ∧
      regs (at_ 0 [0x85]) = some (0x00, 0x00, 0x00, 0x0002) := by decide

/-- A memory in which every cell holds the same byte. -/
theorem read_all_alike {m : Memory} {v : Byte} (h : ∀ c ∈ m, c.2 = v) {a : Nat}
    (ha : ∃ c ∈ m, c.1 = a) : m.read a = v := by
  induction m with
  | nil => obtain ⟨c, hc, -⟩ := ha; simp at hc
  | cons d m ih =>
    rw [Memory.read]
    split
    · exact h d (by simp)
    · next hne =>
      obtain ⟨c, hc, e⟩ := ha
      refine ih (fun c hc => h c (by simp [hc])) ⟨c, ?_, e⟩
      rcases List.mem_cons.mp hc with rfl | hc
      · exact absurd e hne
      · exact hc

/-- A memory that lists the first `n` cells, each holding `v`. -/
theorem read_fill (n : Nat) (v : Byte) {a : Nat} (ha : a < n) :
    Memory.read ((List.range n).map (fun k => (k, v))) a = v := by
  refine read_all_alike (fun c hc => ?_) ⟨(a, v), ?_, rfl⟩
  · obtain ⟨k, -, rfl⟩ := List.mem_map.mp hc
    rfl
  · exact List.mem_map.mpr ⟨a, List.mem_range.mpr ha, rfl⟩

/-- A running core whose first `n` cells are 0xE8 (R66's example). -/
def inxCells (n : Nat) : State :=
  { State.powerOn with mem := (List.range n).map (fun k => (k, 0xE8)), runState := .running }

/-- With the cells of the whole address space it never meets another byte. -/
theorem inxCells_read8 {n : Nat} (hn : Config.memSize ≤ n) (a : Word) :
    (inxCells n).read8 a = 0xE8 := read_fill n 0xE8 (Nat.lt_of_lt_of_le a.isLt hn)

theorem witness_RunOfAllInxNeverEnds :
    ∃ s : State, s.runState = .running ∧ ∀ a : Word, s.read8 a = 0xE8 :=
  Exists.intro (inxCells Config.memSize) (And.intro rfl (inxCells_read8 (Nat.le_refl _)))

theorem witness_ResolverOfTheUnusedModes :
    let s := { at_ 0x8001 [0xFE] with x := 0x01 }
    (0x00FF : Word).toNat = ((s.read8 s.pc).toNat + s.x.toNat) % 256 ∧
      (0x0000 : Word).toNat = ((s.read8 s.pc).toNat + s.x.toNat + 1) % 256 := by decide

/-- A pointer of 0xFE, and of 0xFF under each value of INDY_ZP_WRAP. -/
theorem witness_IndirectYUnderEitherWrap :
    (0x00FE : Word).toNat = ((at_ 0x8001 [0xFE]).read8 0x8001).toNat ∧
      (0x00FF : Word).toNat = (0x00FE : Word).toNat + 1 ∧
      (at_ 0x8001 [0xFF]).read8 0x8001 = 0xFF ∧
      (0x0000 : Word).toNat = (if true then 0x0000 else 0x0100) ∧
      (0x0100 : Word).toNat = (if false then 0x0000 else 0x0100) := by decide

theorem witness_ResolverFailsOnlyOnModeNone :
    resolveWith true .none State.powerOn = .error .invalidAddressingMode := rfl

theorem witness_LdaImmediateLoadsTheOperandByte :
    (at_ 0xFFFF [0xA9, 0x80]).runState = .running ∧ (at_ 0xFFFF [0xA9, 0x80]).read8 0xFFFF = 0xA9 := by
  decide

theorem witness_LdaZeroPageLoadsTheCell :
    let s := at_ 0xFFFF [0xA5, 0xFF]
    s.runState = .running ∧ s.read8 s.pc = 0xA5 ∧
      (0x00FF : Word).toNat = (s.read8 (s.pc + 1)).toNat ∧
      (0x00FF : Word).toNat = (0xFF : Byte).toNat := by decide

theorem witness_LdaAbsoluteLoadsTheCell :
    let s := at_ 0xFFFE [0xAD, 0xFF, 0xFF]
    s.runState = .running ∧ s.read8 s.pc = 0xAD ∧
      (0xFFFF : Word).toNat =
        (s.read8 (s.pc + 2)).toNat * 256 + (s.read8 (s.pc + 1)).toNat := by decide

theorem witness_StaZeroPageStoresAInTheCell :
    let s := at_ 0xFFFF [0x85, 0xFF]
    s.mem.wf ∧ s.runState = .running ∧ s.read8 s.pc = 0x85 := by decide

theorem witness_StaZeroPageXStoresAInTheCell :
    let s := { at_ 0xFFFF [0x95, 0xFF] with x := 0x01 }
    s.mem.wf ∧ s.runState = .running ∧ s.read8 s.pc = 0x95 := by decide

/-- Each of the two stores, from a memory that is canonical and holds the operand. -/
theorem witness_StoresLeaveEveryOtherByte :
    let s := { at_ 0xFFFF [0x95, 0xFF] with a := 0x01, x := 0x01 }
    (next? (exec (.staZp 0xFF) s)).isSome = true ∧ (next? (exec (.staZpX 0xFF) s)).isSome = true ∧
      s.mem.wf ∧ (0x0001 : Word) ≠ eaZeroPageIndexed 0xFF s.x := by decide

theorem witness_TaxCopiesAToX :
    (at_ 0xFFFF [0xAA]).runState = .running ∧ (at_ 0xFFFF [0xAA]).read8 0xFFFF = 0xAA := by decide

theorem witness_InxIncrementsXModulo256 :
    let s := { at_ 0xFFFF [0xE8] with x := 0xFF }
    (0x00 : Byte).toNat = (s.x.toNat + 1) % 256 ∧ s.runState = .running ∧
      s.read8 s.pc = 0xE8 := by decide

theorem witness_TwoInxFromFFWrapThroughZero :
    let s := { at_ 0xFFFF [0xE8, 0xE8] with x := 0xFF }
    s.runState = .running ∧ s.x = 0xFF ∧ s.read8 s.pc = 0xE8 ∧ s.read8 (s.pc + 1) = 0xE8 := by decide

theorem witness_BrkHaltsAndChangesNothingElse :
    (at_ 0xFFFF [0x00]).runState = .running ∧ (at_ 0xFFFF [0x00]).read8 0xFFFF = 0x00 := by decide

theorem witness_IllegalOpcodeFaultsWithItsByte :
    let s := at_ 0xFFFF [0x01]
    s.runState = .running ∧
      s.read8 s.pc ∉ ([0x00, 0x85, 0x95, 0xA5, 0xA9, 0xAA, 0xAD, 0xE8] : List Byte) := by decide

/-- For the statements about the host in a core that is not Running: ResetZeroesAXPAndReadsTheVector,
HostMovesOnlyWhileTheCoreIsNotRunning and StoppedCoreKeepsItsState, in each of the three run states. -/
theorem witness_not_running :
    State.powerOn.runState ≠ .running ∧ (State.powerOn.setRun .halted).runState ≠ .running ∧
      (raise (.unsupportedOpcode 0xEA) State.powerOn).runState ≠ .running := by decide

/-- The three hypothetical clauses: a load then a reset, two writes then a reset, a reset of power-on. -/
theorem witness_ResetStartsWhereTheVectorPoints :
    State.powerOn.mem.wf ∧
      (next? (hostMove (.load []) State.powerOn)).isSome = true ∧
      (next? (hostMove .reset (loadImage [] State.powerOn))).map (·.pc) = some 0x8000 ∧
      (next? (hostMove (.memWrite 0xFFFC 0x34) State.powerOn)).isSome = true ∧
      (next? (hostMove (.memWrite 0xFFFD 0x12) (State.powerOn.write8 0xFFFC 0x34))).isSome = true ∧
      (next? (hostMove .reset
        ((State.powerOn.write8 0xFFFC 0x34).write8 0xFFFD 0x12))).map (·.pc) = some 0x1234 ∧
      (next? (hostMove .reset State.powerOn)).map (·.pc) = some 0x0000 := by decide

/-- Two states that agree on the vector and differ elsewhere. -/
theorem witness_ResetReadsTheVectorAlone :
    let s := State.powerOn.write8 0xFFFB 0x01
    s.read8 0xFFFC = State.powerOn.read8 0xFFFC ∧ s.read8 0xFFFD = State.powerOn.read8 0xFFFD ∧
      (next? (hostMove .reset s)).isSome = true := by decide

/-- For LoadWritesTheImageThenTheVector and LoadAndRunStartsTheProgram: the longest image, over the vector,
and a short one. -/
theorem witness_accepted_load :
    State.powerOn.mem.wf ∧ State.powerOn.runState ≠ .running ∧
      (List.replicate 0x8000 (0xE8 : Byte)).length ≤ 0x8000 :=
  ⟨Memory.wf_nil, by decide, Nat.le_of_eq List.length_replicate⟩

theorem witness_LoadAndRunStartsTheProgram :
    (next? (hostMove (.load [0x00]) State.powerOn)).isSome = true ∧
      (next? (hostMove .reset (loadImage [0x00] State.powerOn))).isSome = true ∧
      (next? (hostMove .run (resetCore (loadImage [0x00] State.powerOn)))).isSome = true := by decide

theorem witness_TooLongImageIsRefused :
    State.powerOn.runState ≠ .running ∧ 0x8000 < (List.replicate 0x8001 (0xE8 : Byte)).length := by
  simp only [List.length_replicate]
  decide

/-- A Stopped core, and the least number of steps. -/
theorem witness_RunStraightAfterPowerOnHaltsAtOnce :
    (resetCore (loadImage [0x00] State.powerOn)).runState = .stopped ∧ 1 ≤ 1 ∧
      next? (hostMove .run State.powerOn) = some (State.powerOn.setRun .running) := by decide

/-- A step and a host move from states that keep the invariant. -/
theorem witness_invariant_kept :
    (at_ 0x10 [0x85, 0xFF]).Inv ∧ (next? (step (at_ 0x10 [0x85, 0xFF]))).isSome = true ∧
      (next? (step (at_ 0x10 [0xEA]))).isSome = true ∧ (at_ 0x10 [0xEA]).Inv ∧
      State.powerOn.Inv ∧ (next? (hostMove (.load [0xEA]) State.powerOn)).isSome = true := by decide

/-- A state reached by the host's `run` and one step of the core. -/
theorem witness_ReachableStatesHaveLegalPAndZeroY :
    Reachable { State.powerOn with pc := 0x0001, runState := .halted } :=
  .move .core (.move (.host .run) .powerOn rfl) rfl

/-- A state reached by a write of another cell. -/
theorem witness_CellsNeverWrittenHoldZero :
    ReachableUnwritten 0x0010 (State.powerOn.write8 0x0011 0x55) :=
  .move (.host (.memWrite 0x0011 0x55)) .powerOn rfl fun h =>
    absurd (show (0x0010 : Word) = 0x0011 from h) (by decide)

end Sys2Proof.Tests
end

namespace Sys2Proof.Machine

/-! ### The shapes of a step

What a step does, by groups of opcodes, and the step of a byte that is known: the lemmas the proofs
about the state (10_state.md) go through instead of the nine cases of `step_cases`. -/

/-- A byte is an opcode when it is one of the eight of R49. -/
theorem isOpcode_iff {b : Byte} :
    isOpcode b = true ↔ b ∈ [0x00, 0x85, 0x95, 0xA5, 0xA9, 0xAA, 0xAD, 0xE8] := by
  simp only [isOpcode, opcodes, List.contains_iff_mem]

/-- `isOpcode_iff`, for the illegal bytes. -/
theorem isOpcode_eq_false_iff {b : Byte} :
    isOpcode b = false ↔ b ∉ [0x00, 0x85, 0x95, 0xA5, 0xA9, 0xAA, 0xAD, 0xE8] := by
  rw [← isOpcode_iff, Bool.not_eq_true]

/-- A running core whose byte at PC is the opcode of an instruction executes that instruction. -/
theorem step_of_decodeOp {s : State} {i : Instr} (hrun : s.runState = .running)
    (hi : decodeOp (s.read8 s.pc) (s.read8 (s.pc + 1)) (s.read8 (s.pc + 2)) = some i) :
    step s = exec i (afterFetch s) := by
  rw [step_of_fetch hrun, fetchInstr_eq, hi]

/-- The next states of a step from `s`, grouped by what the opcode byte lets the step write. -/
inductive StepShape (s : State) : State → Prop
  /-- BRK -/
  | halt (byte : s.read8 s.pc = 0x00) :
      StepShape s { s with pc := s.pc + 1, runState := .halted }
  /-- TAX and INX -/
  | index (v : Byte) (byte : s.read8 s.pc = 0xAA ∨ s.read8 s.pc = 0xE8) :
      StepShape s { s with x := v, p := flagsZN v s.p, pc := s.pc + 1 }
  /-- LDA with one operand byte -/
  | loadShort (v : Byte) (byte : s.read8 s.pc = 0xA9 ∨ s.read8 s.pc = 0xA5) :
      StepShape s { s with a := v, p := flagsZN v s.p, pc := s.pc + 2 }
  /-- LDA with two operand bytes -/
  | loadLong (v : Byte) (byte : s.read8 s.pc = 0xAD) :
      StepShape s { s with a := v, p := flagsZN v s.p, pc := s.pc + 3 }
  /-- STA, which writes the cell `ea` -/
  | store (ea : Word)
      (byte : s.read8 s.pc = 0x85 ∧ ea = eaZeroPage (s.read8 (s.pc + 1)) ∨
        s.read8 s.pc = 0x95 ∧ ea = eaZeroPageIndexed (s.read8 (s.pc + 1)) s.x) :
      StepShape s { s.write8 ea s.a with pc := s.pc + 2 }
  /-- an illegal byte -/
  | fault (byte : isOpcode (s.read8 s.pc) = false) :
      StepShape s
        { s with pc := s.pc + 1, runState := .faulted (.unsupportedOpcode (s.read8 s.pc)) }

/-- A running core has a next state, of one of these shapes (R59). -/
theorem step_shape_of_running {s : State} (hrun : s.runState = .running) :
    ∃ t, step s = .next t ∧ StepShape s t := by
  rcases step_cases hrun with ⟨hb, e⟩ | ⟨hb, e⟩ | ⟨hb, e⟩ | ⟨hb, e⟩ | ⟨hb, e⟩ | ⟨hb, e⟩ |
    ⟨hb, e⟩ | ⟨hb, e⟩ | ⟨hb, e⟩
  · exact ⟨_, e, .halt hb⟩
  · exact ⟨_, e, .index _ (.inl hb)⟩
  · exact ⟨_, e, .index _ (.inr hb)⟩
  · exact ⟨_, e, .loadShort _ (.inl hb)⟩
  · exact ⟨_, e, .loadShort _ (.inr hb)⟩
  · exact ⟨_, e, .loadLong _ hb⟩
  · exact ⟨_, e, .store _ (.inl ⟨hb, rfl⟩)⟩
  · exact ⟨_, e, .store _ (.inr ⟨hb, rfl⟩)⟩
  · exact ⟨_, e, .fault hb⟩

/-- Whatever a step answers as a next state has one of these shapes. -/
theorem step_shape {s t : State} (h : step s = .next t) : StepShape s t := by
  obtain ⟨u, hu, shape⟩ := step_shape_of_running (step_next_running h)
  cases h.symm.trans hu
  exact shape

/-! ### The invariant

The invariant of R25: it holds at power-on, the core's step and the host's moves keep it, so every
reachable state has it. -/

/-- Of a legal P nothing survives `SetZN`, so the new P depends on the value alone (R18, R63). -/
theorem flagsZN_of_legalP {p : Byte} (hp : legalP p) (v : Byte) :
    flagsZN v p = if v = 0x00 then 0x02 else if v.getLsbD 7 then 0x80 else 0x00 := by
  have hkept : p &&& 0x7D = 0x00 := by rcases hp with rfl | rfl | rfl <;> rfl
  have hneg : v &&& 0x80 = if v.getLsbD 7 then 0x80 else 0x00 := BitVec.and_twoPow v 7
  rw [flagsZN, hkept, hneg]
  by_cases hv : v = 0x00
  · rw [hv]
    rfl
  · rw [if_neg hv, if_neg hv]
    simp

/-- `SetZN` keeps P legal (R18). -/
theorem legalP_flagsZN {p : Byte} (hp : legalP p) (v : Byte) : legalP (flagsZN v p) := by
  rw [flagsZN_of_legalP hp]
  split_ifs
  · exact .inr (.inl rfl)
  · exact .inr (.inr rfl)
  · exact .inl rfl

/-- The invariant holds at power-on. -/
theorem powerOn_inv : State.powerOn.Inv := ⟨Memory.wf_nil, .inl rfl, rfl, rfl⟩

/-- A step keeps the invariant: the shapes that set the flags keep P legal, a store keeps memory canonical,
and a fault carries the illegal byte. -/
theorem step_inv {s t : State} (hs : s.Inv) (h : step s = .next t) : t.Inv := by
  obtain ⟨hmem, hp, hy, hrun⟩ := hs
  cases step_shape h with
  | halt _ => exact ⟨hmem, hp, hy, rfl⟩
  | index v _ => exact ⟨hmem, legalP_flagsZN hp v, hy, hrun⟩
  | loadShort v _ => exact ⟨hmem, legalP_flagsZN hp v, hy, hrun⟩
  | loadLong v _ => exact ⟨hmem, legalP_flagsZN hp v, hy, hrun⟩
  | store ea _ => exact ⟨State.write8_wf hmem ea s.a, hp, hy, hrun⟩
  | fault hb => exact ⟨hmem, hp, hy, by simp [RunState.legal, hb]⟩

/-- Settles O51, by `step_inv`. -/
theorem everyStepKeepsTheInvariant : Obligations.EveryStepKeepsTheInvariant :=
  fun _ _ => step_inv

/-- A byte write keeps the invariant. -/
theorem write8_inv {s : State} (h : s.Inv) (addr : Word) (v : Byte) : (s.write8 addr v).Inv := by
  obtain ⟨hmem, hp, hy, hrun⟩ := h
  exact ⟨State.write8_wf hmem addr v, hp, hy, hrun⟩

/-- A load keeps the invariant. -/
theorem loadImage_inv (image : List Byte) {s : State} (h : s.Inv) : (loadImage image s).Inv := by
  obtain ⟨hmem, hp, hy, hrun⟩ := h
  have hwf := loadImage_wf image hmem
  obtain ⟨m, e⟩ := loadImage_mem_only image s
  rw [e] at hwf ⊢
  exact ⟨hwf, hp, hy, hrun⟩

/-- Reset keeps the invariant: it zeroes P and leaves Y and memory. -/
theorem resetCore_inv {s : State} (h : s.Inv) : (resetCore s).Inv := by
  obtain ⟨hmem, -, hy, -⟩ := h
  exact ⟨hmem, .inl rfl, hy, rfl⟩

/-- The entry of `run` keeps the invariant. -/
theorem enterRun_inv {s : State} (h : s.Inv) : (enterRun s).Inv := by
  obtain ⟨hmem, hp, hy, -⟩ := h
  exact ⟨hmem, hp, hy, rfl⟩

/-- Each of the host's moves keeps the invariant. -/
theorem hostMove_inv {mv : HostMove} {s t : State} (hs : s.Inv) (h : hostMove mv s = .next t) :
    t.Inv := by
  rcases hostEffect_cases (hostMove_next h).2 with ⟨image, -, -, rfl⟩ | ⟨-, rfl⟩ | ⟨-, rfl⟩ |
    ⟨image, -, -, rfl⟩ | ⟨addr, v, -, rfl⟩
  · exact loadImage_inv image hs
  · exact resetCore_inv hs
  · exact enterRun_inv hs
  · exact enterRun_inv (resetCore_inv (loadImage_inv image hs))
  · exact write8_inv hs addr v

/-- Settles O52, by `hostMove_inv`. -/
theorem everyHostMoveKeepsTheInvariant : Obligations.EveryHostMoveKeepsTheInvariant :=
  fun _ _ _ => hostMove_inv

/-- Every reachable state has the invariant. -/
theorem Reachable.inv {s : State} (h : Reachable s) : s.Inv := by
  induction h with
  | powerOn => exact powerOn_inv
  | move m _ hmove ih =>
    cases m with
    | core => exact step_inv ih hmove
    | host mv => exact hostMove_inv ih hmove

/-- Settles O53, by the invariant of reachable states. -/
theorem reachableStatesHaveLegalPAndZeroY : Obligations.ReachableStatesHaveLegalPAndZeroY := by
  intro s h
  obtain ⟨hmem, hp, hy, hrun⟩ := h.inv
  refine ⟨hp, hy, fun hf => ?_, hmem⟩
  rw [hf] at hrun
  cases hrun

/-- Settles O50: both states list no cell and are Stopped. -/
theorem invariantHoldsAtPowerOnAndReset : Obligations.InvariantHoldsAtPowerOnAndReset :=
  ⟨powerOn_inv, Memory.wf_nil, .inl rfl, rfl, rfl⟩

/-! ### Cells never written

R25 (c): a cell keeps its byte through every move that is not one of its writers (R44). -/

/-- A step leaves a cell alone that it does not store to. -/
theorem step_read8_of_not_writes {s t : State} {a : Word} (h : step s = .next t)
    (hw : ¬ Writes .core s a) : t.read8 a = s.read8 a := by
  cases step_shape h with
  | store ea hb =>
    refine State.read8_write8_other s (fun hae => hw ?_) s.a
    subst hae
    rcases hb with ⟨hb, rfl⟩ | ⟨hb, rfl⟩
    · exact .inl ⟨hb, eaZeroPage_toNat _⟩
    · exact .inr ⟨hb, eaZeroPageIndexed_toNat _ _⟩
  | _ => rfl

/-- An accepted load leaves every cell alone that is neither the image's nor the vector's (R114). -/
theorem loadImage_read8_of_not_loadWrites {image : List Byte} (hlen : image.length ≤ 0x8000)
    (s : State) {a : Word} (hw : ¬ loadWrites image.length a) :
    (loadImage image s).read8 a = s.read8 a := by
  obtain ⟨himage, hlow, hhigh⟩ : ¬ (0x8000 ≤ a.toNat ∧ a.toNat < 0x8000 + image.length) ∧
      a ≠ 0xFFFC ∧ a ≠ 0xFFFD := by
    simpa only [loadWrites, not_or] using hw
  have horigin : Config.programOrigin.toNat = 0x8000 := rfl
  have hsize : Config.memSize = 0x10000 := rfl
  rw [loadImage_read8_beside_vector image s hlow hhigh]
  exact writeBytes_read8_other image s (by omega) (by omega)

/-- A host move leaves every cell alone that it does not write. -/
theorem hostMove_read8_of_not_writes {mv : HostMove} {s t : State} {a : Word}
    (h : hostMove mv s = .next t) (hw : ¬ Writes (.host mv) s a) : t.read8 a = s.read8 a := by
  rcases hostEffect_cases (hostMove_next h).2 with ⟨image, rfl, hlen, rfl⟩ | ⟨-, rfl⟩ | ⟨-, rfl⟩ |
    ⟨image, rfl, hlen, rfl⟩ | ⟨addr, v, rfl, rfl⟩
  · exact loadImage_read8_of_not_loadWrites hlen s hw
  · rfl
  · rfl
  · exact loadImage_read8_of_not_loadWrites hlen s hw
  · exact State.read8_write8_other s hw v

/-- A move of either agent leaves every cell alone that it does not write (R44). -/
theorem move_read8_of_not_writes {m : Move} {s t : State} {a : Word} (h : move m s = .next t)
    (hw : ¬ Writes m s a) : t.read8 a = s.read8 a := by
  cases m with
  | core => exact step_read8_of_not_writes h hw
  | host mv => exact hostMove_read8_of_not_writes h hw

/-- Settles O54, by induction on the moves since power-on. -/
theorem cellsNeverWrittenHoldZero : Obligations.CellsNeverWrittenHoldZero := by
  intro a s h
  induction h with
  | powerOn => exact Memory.read_nil _
  | move m _ hmove hw ih => exact (move_read8_of_not_writes hmove hw).trans ih

/-! ### The frame of a step

Which step has a next state, what it may write, and what no step reads (10_state.md rules R11 to R17
and R20). -/

/-- Settles O16, one clause per run state of the step's own case split. -/
theorem coreHasNoMoveUnlessRunning : Obligations.CoreHasNoMoveUnlessRunning := by
  intro s
  refine ⟨fun h => ?_, fun h => ?_, fun c h => ?_, fun t => step_next_running⟩ <;>
    simp only [step, h]

/-- The run state after a step, by the byte at PC (R59): BRK halts, an illegal byte faults, and the other
seven opcodes leave the core running. -/
theorem step_runState {s t : State} (h : step s = .next t) :
    t.runState =
      if s.read8 s.pc = 0x00 then .halted
      else if isOpcode (s.read8 s.pc) then .running
      else .faulted (.unsupportedOpcode (s.read8 s.pc)) := by
  have hrun := step_next_running h
  cases step_shape h with
  | halt hb => rw [if_pos hb]
  | index v hb => rcases hb with hb | hb <;> rw [hb] <;> exact hrun
  | loadShort v hb => rcases hb with hb | hb <;> rw [hb] <;> exact hrun
  | loadLong v hb => rw [hb]; exact hrun
  | store ea hb => rcases hb with ⟨hb, -⟩ | ⟨hb, -⟩ <;> rw [hb] <;> exact hrun
  | fault hb =>
    have hne : s.read8 s.pc ≠ 0x00 := fun he => by rw [he] at hb; cases hb
    rw [if_neg hne, hb]
    rfl

/-- Settles O15: the three outcomes of `step_runState` exclude each other. -/
theorem runningCoreAlwaysHasANextState : Obligations.RunningCoreAlwaysHasANextState := by
  intro s hrun
  obtain ⟨t, h, -⟩ := step_shape_of_running hrun
  refine ⟨t, h, ?_⟩
  rw [step_runState h]
  simp only [← isOpcode_eq_false_iff]
  split_ifs with hb hop
  · simp [hb, isOpcode, opcodes]
  · simpa [hop] using hb
  · simpa [hop, eq_comm] using hb

/-- Only reset, and `load_and_run` which contains one, writes PC among the host's moves (R14). -/
theorem hostMove_pc {mv : HostMove} {s t : State} (h : hostMove mv s = .next t)
    (hreset : mv ≠ .reset) (hrun : ∀ image, mv ≠ .loadAndRun image) : t.pc = s.pc := by
  rcases hostEffect_cases (hostMove_next h).2 with ⟨image, -, -, rfl⟩ | ⟨e, -⟩ | ⟨-, rfl⟩ |
    ⟨image, e, -, -⟩ | ⟨addr, v, -, rfl⟩
  · obtain ⟨m, e⟩ := loadImage_mem_only image s
    rw [e]
  · exact absurd e hreset
  · rfl
  · exact absurd e (hrun image)
  · rfl

/-- How far a step advances PC (R14). -/
theorem step_pc {s t : State} (h : step s = .next t) :
    (s.read8 s.pc = 0xAD → t.pc = s.pc + 3) ∧
    (s.read8 s.pc ∈ ([0xA9, 0xA5, 0x85, 0x95] : List Byte) → t.pc = s.pc + 2) ∧
    (s.read8 s.pc ∉ ([0xAD, 0xA9, 0xA5, 0x85, 0x95] : List Byte) → t.pc = s.pc + 1) := by
  cases step_shape h with
  | halt hb => simp [hb]
  | index v hb => rcases hb with hb | hb <;> simp [hb]
  | loadShort v hb => rcases hb with hb | hb <;> simp [hb]
  | loadLong v hb => simp [hb]
  | store ea hb => rcases hb with ⟨hb, -⟩ | ⟨hb, -⟩ <;> simp [hb]
  | fault hb =>
    have hb := isOpcode_eq_false_iff.mp hb
    simp_all

/-- Settles O17, by `step_pc` for the core and `hostMove_pc` for the host. -/
theorem pcAdvancesByTheInstructionLength : Obligations.PcAdvancesByTheInstructionLength :=
  ⟨fun _ _ => step_pc,
    fun _ _ _ h => hostMove_pc h nofun nofun,
    fun _ _ _ _ h => hostMove_pc h nofun nofun,
    fun _ _ h => hostMove_pc h nofun nofun⟩

/-- Settles O19: each shape of a step names the registers it writes. -/
theorem stepChangesOnlyTheRegistersItsOpcodeNames :
    Obligations.StepChangesOnlyTheRegistersItsOpcodeNames := by
  intro s t h
  cases step_shape h with
  | halt _ => simp
  | index v hb => rcases hb with hb | hb <;> simp [hb]
  | loadShort v hb => rcases hb with hb | hb <;> simp [hb]
  | loadLong v hb => simp [hb]
  | store ea _ => simp
  | fault _ => simp

/-- The meaning of an instruction carries Y along (R12). -/
theorem exec_setY {i : Instr} {s t : State} (h : exec i s = .next t) (v : Byte) :
    exec i { s with y := v } = .next { t with y := v } := by
  cases i <;> cases h <;> rfl

/-- Settles O20: the fetch reads PC and memory alone, and no meaning reads Y. -/
theorem noStepReadsY : Obligations.NoStepReadsY := by
  intro s t v h
  have hrun := step_next_running h
  rw [step_of_fetch hrun] at h
  have hfetch : fetchInstr { s with y := v } = fetchInstr s := rfl
  rw [step_of_fetch (s := { s with y := v }) hrun, hfetch]
  cases hf : fetchInstr s with
  | none => rw [hf] at h; cases h; rfl
  | some i => rw [hf] at h; exact exec_setY h v

/-- The opcodes that call `SetZN` (R17). -/
def flagOpcodes : List Byte := [0xA9, 0xA5, 0xAD, 0xAA, 0xE8]

/-- The meaning of an instruction under another P: a flag-affecting one applies `SetZN` of the same value to
it, and every other one carries it along (R17). -/
theorem exec_setP {i : Instr} {s t : State} (h : exec i s = .next t) (q : Byte) :
    (i.opcode ∈ flagOpcodes ∧ ∃ v, t.p = flagsZN v s.p ∧
      exec i { s with p := q } = .next { t with p := flagsZN v q }) ∨
    (i.opcode ∉ flagOpcodes ∧ exec i { s with p := q } = .next { t with p := q }) := by
  cases i <;> cases h
  case brk => exact .inr ⟨by decide, rfl⟩
  case staZp => exact .inr ⟨by simp [Instr.opcode, flagOpcodes], rfl⟩
  case staZpX => exact .inr ⟨by simp [Instr.opcode, flagOpcodes], rfl⟩
  all_goals exact .inl ⟨by simp [Instr.opcode, flagOpcodes], _, rfl, rfl⟩

/-- The switch answers nothing for an illegal byte only (R51). -/
theorem isOpcode_of_decodeOp_none {op d1 d2 : Byte} (h : decodeOp op d1 d2 = none) :
    isOpcode op = false := by
  rcases decodeOp_cases op d1 d2 with ⟨-, e⟩ | ⟨-, e⟩ | ⟨-, e⟩ | ⟨-, e⟩ | ⟨-, e⟩ | ⟨-, e⟩ |
    ⟨-, e⟩ | ⟨-, e⟩ | ⟨hop, -⟩
  case inr.inr.inr.inr.inr.inr.inr.inr => exact hop
  all_goals cases h.symm.trans e

/-- A step under another P, as `exec_setP` says it of the meanings. -/
theorem step_setP {s t : State} (h : step s = .next t) (q : Byte) :
    (s.read8 s.pc ∈ flagOpcodes ∧ ∃ v, t.p = flagsZN v s.p ∧
      step { s with p := q } = .next { t with p := flagsZN v q }) ∨
    (s.read8 s.pc ∉ flagOpcodes ∧ step { s with p := q } = .next { t with p := q }) := by
  have hrun := step_next_running h
  have hfetch : fetchInstr { s with p := q } = fetchInstr s := rfl
  rw [step_of_fetch hrun] at h
  rw [step_of_fetch (s := { s with p := q }) hrun, hfetch]
  cases hf : fetchInstr s with
  | none =>
    rw [hf] at h
    cases h
    have hop := isOpcode_of_decodeOp_none ((fetchInstr_eq s).symm.trans hf)
    refine .inr ⟨fun hm => ?_, rfl⟩
    have hflag : ∀ b ∈ flagOpcodes, isOpcode b = true := by decide
    simp [hflag _ hm] at hop
  | some i =>
    rw [hf] at h
    rw [← decodeOp_opcode ((fetchInstr_eq s).symm.trans hf)]
    exact exec_setP h q

/-- Z after `SetZN` is told by the value, whatever P was (R63). -/
theorem flagsZN_getLsbD_one (v p : Byte) : (flagsZN v p).getLsbD 1 = decide (v = 0x00) := by
  rw [flagsZN_getLsbD]
  simp

/-- N after `SetZN` is told by the value, whatever P was (R63). -/
theorem flagsZN_getLsbD_seven (v p : Byte) : (flagsZN v p).getLsbD 7 = v.getLsbD 7 := by
  rw [flagsZN_getLsbD]
  simp

/-- Settles O21: Z and N come from the value `SetZN` is given, which no P enters. -/
theorem noStepReadsTheStatusRegister : Obligations.NoStepReadsTheStatusRegister := by
  intro s t q h
  rcases step_setP h q with ⟨hb, v, htp, hstep⟩ | ⟨hb, hstep⟩
  · refine ⟨_, hstep, fun _ => ?_, fun hn => absurd hb hn⟩
    rw [htp]
    exact ⟨by rw [flagsZN_getLsbD_one, flagsZN_getLsbD_one],
      by rw [flagsZN_getLsbD_seven, flagsZN_getLsbD_seven]⟩
  · exact ⟨q, hstep, fun hm => absurd hm hb, fun _ => rfl⟩

/-! ### Runs, power-on and reset

Runs and states written out: the run that never ends (R66, R122), the instruction at the top of memory
(R15), power-on and reset (R111, R112). -/

/-- The step of INX (R87). -/
theorem step_inx {s : State} (hrun : s.runState = .running) (hb : s.read8 s.pc = 0xE8) :
    step s = .next (writeX (s.x + 1) (afterFetch s)) :=
  step_of_decodeOp hrun (i := .inx) (by rw [hb]; rfl)

/-- A run whose first step has a next state goes on from there. -/
theorem coreRun_succ {s t : State} (h : step s = .next t) (n : Nat) :
    coreRun (n + 1) s = coreRun n t := by
  rw [coreRun, h]

/-- Settles O22, by induction on the number of steps. -/
theorem runOfAllInxNeverEnds : Obligations.RunOfAllInxNeverEnds := by
  intro s hrun hcells n
  induction n generalizing s with
  | zero =>
    have := s.x.isLt
    have := s.pc.isLt
    exact ⟨hrun, by rw [coreRun]; omega, by rw [coreRun]; omega⟩
  | succ n ih =>
    rw [coreRun_succ (step_inx hrun (hcells s.pc))]
    obtain ⟨hrun', hx, hpc⟩ := ih (writeX (s.x + 1) (afterFetch s)) hrun hcells
    have hx1 : (writeX (s.x + 1) (afterFetch s)).x.toNat = (s.x.toNat + 1) % 256 :=
      BitVec.toNat_add _ _
    have hpc1 : (writeX (s.x + 1) (afterFetch s)).pc.toNat = (s.pc.toNat + 1) % 65536 :=
      BitVec.toNat_add _ _
    exact ⟨hrun', by omega, by omega⟩

/-- The step of LDA Absolute (R82). -/
theorem step_ldaAbs {s : State} (hrun : s.runState = .running) (hb : s.read8 s.pc = 0xAD) :
    step s = .next (loadA (s.read8 (concat16 (s.read8 (s.pc + 2)) (s.read8 (s.pc + 1)))) 2
      (afterFetch s)) := by
  rw [step_of_decodeOp hrun (by rw [hb]; rfl)]
  rfl

/-- Settles O18: the addresses of the operand bytes and the sum of PC wrap. -/
theorem instructionStraddlesTheTopOfMemory : Obligations.InstructionStraddlesTheTopOfMemory := by
  intro s hrun hpc hb
  refine ⟨_, step_ldaAbs hrun (by rw [hpc, hb]), ?_, fun ea hea => ?_⟩
  · simp [loadA_eq, afterFetch, hpc]
  · have hea' : ea = concat16 (s.read8 0x0000) (s.read8 0xFFFF) :=
      BitVec.eq_of_toNat_eq (hea.trans (concat16_toNat _ _).symm)
    rw [hea', loadA_eq, hpc]
    rfl

/-- Settles O39: the power-on memory lists no cell. -/
theorem powerOnZeroesEverything : Obligations.PowerOnZeroesEverything :=
  ⟨rfl, rfl, rfl, rfl, rfl, fun _ => Memory.read_nil _, rfl⟩

/-- The host's reset has a move in every run state but Running (R120). -/
theorem hostMove_reset {s : State} (h : s.runState ≠ .running) :
    hostMove .reset s = .next (resetCore s) := by
  have hmove : hostHasMove s.runState .reset = true := by
    cases hr : s.runState with
    | running => exact absurd hr h
    | _ => rfl
  rw [hostMove, if_pos hmove, hostEffect]

/-- Settles O40: the move is `resetCore`, whose 16-bit read of the vector is little-endian. -/
theorem resetZeroesAXPAndReadsTheVector : Obligations.ResetZeroesAXPAndReadsTheVector := by
  intro s h
  exact ⟨resetCore s, hostMove_reset h, rfl, rfl, rfl, rfl, rfl, rfl, State.read16_toNat s _⟩

/-- Settles O41: the vector of an empty memory is 0x0000. -/
theorem resetStateIsTheResetOfPowerOn : Obligations.ResetStateIsTheResetOfPowerOn := by
  have hreset : resetCore State.powerOn = State.reset := by decide
  rw [Obligations.ResetStateIsTheResetOfPowerOn, hostMove_reset (by decide), hreset]

end Sys2Proof.Machine

namespace Sys2Proof.Machine

/-! ### Memory accesses

What a read returns after a write of a byte or of a word, and which data a canonical memory is
(20_memory.md rules R26 to R30). -/

/-- Settles O6, by the laws of the byte write. -/
theorem byteWriteIsReadBackAndChangesNoOtherCell :
    Obligations.ByteWriteIsReadBackAndChangesNoOtherCell :=
  ⟨fun s addr v h => ⟨State.read8_write8_same h addr v,
      fun _ hb => State.read8_write8_other s hb v, State.write8_wf h addr v⟩,
    fun _ => Memory.read_nil _⟩

/-- No address is its own successor, also where the successor wraps. -/
theorem word_ne_add_one (addr : Word) : addr ≠ addr + 1 := by bv_omega

/-- After a 16-bit write its address holds the low byte, which the write of the high byte leaves
alone (R29). -/
theorem State.read8_write16_low {s : State} (h : s.mem.wf) (addr w : Word) :
    (s.write16 addr w).read8 addr = lowByte w := by
  rw [State.write16, State.read8_write8_other _ (word_ne_add_one addr)]
  exact State.read8_write8_same h addr _

/-- After a 16-bit write the next address, which wraps, holds the high byte (R29). -/
theorem State.read8_write16_high {s : State} (h : s.mem.wf) (addr w : Word) :
    (s.write16 addr w).read8 (addr + 1) = highByte w :=
  State.read8_write8_same (State.write8_wf h addr _) _ _

/-- A 16-bit write changes no third cell. -/
theorem State.read8_write16_other (s : State) {addr b : Word} (hlow : b ≠ addr)
    (hhigh : b ≠ addr + 1) (w : Word) : (s.write16 addr w).read8 b = s.read8 b := by
  rw [State.write16, State.read8_write8_other _ hhigh, State.read8_write8_other s hlow]

/-- A 16-bit write is read back. -/
theorem State.read16_write16_same {s : State} (h : s.mem.wf) (addr w : Word) :
    (s.write16 addr w).read16 addr = w := by
  rw [State.read16, State.read8_write16_high h, State.read8_write16_low h, concat16_high_low]

/-- Settles O7: both bytes of the word are read back, and the successor of 0xFFFF is 0x0000. -/
theorem wordAccessIsLittleEndianAndWraps : Obligations.WordAccessIsLittleEndianAndWraps := by
  intro s addr w h
  refine ⟨State.read16_write16_same h addr w, ?_, ?_,
    fun _ hlow hhigh => State.read8_write16_other s hlow hhigh w, State.read16_toNat s addr, ?_⟩
  · rw [State.read8_write16_low h, lowByte_toNat]
  · rw [State.read8_write16_high h, highByte_toNat]
  · rintro rfl
    exact State.read16_toNat s 0xFFFF

/-- The entries of a canonical memory are told by its reads: one for each cell that does not read as
unwritten. -/
theorem Memory.mem_iff_read {m : Memory} (h : m.wf) {c : Host.Cell} :
    c ∈ m ↔ c.1 < Config.memSize ∧ c.2 ≠ Config.unwritten ∧ m.read c.1 = c.2 := by
  constructor
  · intro hc
    obtain ⟨haddr, hval⟩ := h.2 c hc
    exact ⟨haddr, hval, Memory.read_listed h hc⟩
  · rintro ⟨-, hval, hread⟩
    by_contra hc
    refine hval (hread.symm.trans (Memory.read_unlisted fun d hd he => hc ?_))
    have hd2 : d.2 = c.2 := by rw [← hread, ← he, Memory.read_listed h hd]
    rwa [← Prod.ext he hd2]

/-- Settles O8: memories that read alike have the same entries, and the rising addresses fix their
order. -/
theorem canonicalMemoriesThatReadAlikeAreEqual :
    Obligations.CanonicalMemoriesThatReadAlikeAreEqual := by
  intro m n hm hn hread
  have hasymm : Std.Antisymm fun c d : Host.Cell => c.1 < d.1 :=
    ⟨fun _ _ hlt hgt => absurd hlt (Nat.lt_asymm hgt)⟩
  have hirrefl : Std.Irrefl fun c d : Host.Cell => c.1 < d.1 := ⟨fun c => Nat.lt_irrefl c.1⟩
  refine hm.1.eq_of_mem_iff hn.1 fun c => ?_
  rw [Memory.mem_iff_read hm, Memory.mem_iff_read hn]
  refine and_congr_right fun haddr => ?_
  have hcell : (BitVec.ofNat 16 c.1).toNat = c.1 := Nat.mod_eq_of_lt haddr
  have hc := hread (BitVec.ofNat 16 c.1)
  rw [hcell] at hc
  rw [hc]

/-! ### Writers of memory

The writers are those of R44, and the core's are confined to the zero page (20_memory.md rules R34,
R36 and R44). -/

/-- Settles O9: a move leaves alone every cell it does not write. -/
theorem onlyTheListedWritersChangeMemory : Obligations.OnlyTheListedWritersChangeMemory := by
  intro m s t a h hchanged
  by_contra hw
  exact hchanged (move_read8_of_not_writes h hw)

/-- The core's stores stay in the zero page (R34). -/
theorem lt_of_writes_core {s : State} {a : Word} (h : Writes .core s a) : a.toNat < 0x0100 := by
  rcases h with ⟨-, ha⟩ | ⟨-, ha⟩ <;> rw [ha]
  · exact (s.read8 (s.pc + 1)).isLt
  · exact Nat.mod_lt _ (by decide)

/-- Settles O10: the core writes no cell from 0x0100 upward. -/
theorem noStepWritesOutsideTheZeroPage : Obligations.NoStepWritesOutsideTheZeroPage :=
  fun _ _ _ h ha => step_read8_of_not_writes h fun hw => absurd (lt_of_writes_core hw) (by omega)

/-! ### A store into the instruction stream

There is no prefetch: a step fetches from the memory its predecessor left (20_memory.md rule R41). -/

/-- The step of either STA (R83, R84). -/
theorem step_sta {s : State} {ea : Word} (hrun : s.runState = .running)
    (hb : s.read8 s.pc = 0x85 ∧ eaZeroPage (s.read8 (s.pc + 1)) = ea ∨
      s.read8 s.pc = 0x95 ∧ eaZeroPageIndexed (s.read8 (s.pc + 1)) s.x = ea) :
    step s = .next { s.write8 ea s.a with pc := s.pc + 2 } := by
  rcases hb with ⟨hb, rfl⟩ | ⟨hb, rfl⟩
  · rw [step_of_decodeOp hrun (i := .staZp _) (by rw [hb]; rfl), ← pc_add_two]
    rfl
  · rw [step_of_decodeOp hrun (i := .staZpX _) (by rw [hb]; rfl), ← pc_add_two]
    rfl

/-- A running core executes what the bytes at PC decode to (R59). -/
theorem step_of_decode {s : State} {i : Instr} {rest : List Byte} (hrun : s.runState = .running)
    (hi : decode (codeBytes s) = .ok (i, rest)) : step s = exec i (afterFetch s) := by
  rw [step_of_fetch hrun, fetchInstr, hi]

/-- The step of BRK (R89). -/
theorem step_brk {s : State} (hrun : s.runState = .running) (hb : s.read8 s.pc = 0x00) :
    step s = .next ((afterFetch s).setRun .halted) :=
  step_of_decodeOp hrun (i := .brk) (by rw [hb]; rfl)

/-- The opcode byte of an instruction is one of the eight (R49). -/
theorem isOpcode_opcode (i : Instr) : isOpcode i.opcode = true := by cases i <;> rfl

/-- The step of an illegal byte (R95). -/
theorem step_illegal {s : State} (hrun : s.runState = .running)
    (hb : isOpcode (s.read8 s.pc) = false) : step s = .next (unsupportedOpcode s) := by
  rw [step_of_fetch hrun]
  cases hf : fetchInstr s with
  | none => rfl
  | some i =>
    rw [← decodeOp_opcode ((fetchInstr_eq s).symm.trans hf), isOpcode_opcode] at hb
    cases hb

/-- What the next fetch reads where a byte has been stored at PC: the stored byte, and the two bytes
that followed. -/
theorem codeBytes_write8_pc {s : State} (h : s.mem.wf) (pc : Word) (v : Byte) :
    codeBytes { s.write8 pc v with pc := pc } = [v, s.read8 (pc + 1), s.read8 (pc + 2)] := by
  have hone : pc + 1 ≠ pc := (word_ne_add_one pc).symm
  have htwo : pc + 2 ≠ pc := by bv_omega
  calc codeBytes { s.write8 pc v with pc := pc }
      = [(s.write8 pc v).read8 pc, (s.write8 pc v).read8 (pc + 1),
          (s.write8 pc v).read8 (pc + 2)] := rfl
    _ = [v, s.read8 (pc + 1), s.read8 (pc + 2)] := by
        rw [State.read8_write8_same h, State.read8_write8_other s hone,
          State.read8_write8_other s htwo]

/-- Settles O11: the store leaves A at the new PC, and the next step is told by that byte. -/
theorem storeIsSeenByTheNextFetch : Obligations.StoreIsSeenByTheNextFetch := by
  intro s hwf hrun hb
  obtain ⟨t, ht⟩ : ∃ t, t = { s.write8 (s.pc + 2) s.a with pc := s.pc + 2 } := ⟨_, rfl⟩
  have hrun' : t.runState = .running := by rw [ht]; exact hrun
  have hpc : t.pc = s.pc + 2 := by rw [ht]
  have hx : t.x = s.x := by rw [ht]; rfl
  have hbytes : codeBytes t = [s.a, s.read8 (s.pc + 3), s.read8 (s.pc + 4)] := by
    rw [ht, codeBytes_write8_pc hwf, BitVec.add_assoc, BitVec.add_assoc]
    rfl
  have hfetch : t.read8 t.pc = s.a := (List.cons.inj hbytes).1
  have hafter : afterFetch t = { t with pc := s.pc + 3 } := by
    rw [afterFetch, State.advancePc, hpc, BitVec.add_assoc]
    rfl
  refine ⟨t, ht ▸ step_sta hrun hb, hpc, hfetch, fun i rest hi => ?_, fun hill => ?_,
    fun hzero => ⟨_, step_brk hrun' (hfetch.trans hzero), rfl⟩,
    fun hinx => ⟨_, step_inx hrun' (hfetch.trans hinx), by rw [← hx]; rfl⟩⟩
  · rw [← hafter]
    exact step_of_decode hrun' (hbytes ▸ hi)
  · refine ⟨_, step_illegal hrun' ?_, ?_⟩
    · rw [hfetch]
      exact isOpcode_eq_false_iff.mpr hill
    · rw [unsupportedOpcode, raise_runState, hfetch]

/-! ### The words of the opcode map -/

/-- Settles O3: each word is evaluated, the two operands of a word one low byte first (R30). -/
theorem wordsOfTheSpecDecode : Obligations.WordsOfTheSpecDecode :=
  ⟨rfl, rfl, rfl, rfl, rfl, rfl, rfl, rfl, rfl, rfl⟩

end Sys2Proof.Machine

namespace Sys2Proof.Machine

/-! ### Decode and encode

The decoder is inverted by the encoding (30_encoding.md rules R45 to R53); what else is said of decoded
bytes goes through `decode_eq_ok_iff`. -/

/-- What the switch answers has the opcode byte and the operand bytes it was given as its encoding. -/
theorem encode_of_decodeOp {op d1 d2 : Byte} {i : Instr} (h : decodeOp op d1 d2 = some i) :
    encode i = op :: [d1, d2].take i.operandCount := by
  rcases decodeOp_cases op d1 d2 with ⟨rfl, e⟩ | ⟨rfl, e⟩ | ⟨rfl, e⟩ | ⟨rfl, e⟩ | ⟨rfl, e⟩ |
    ⟨rfl, e⟩ | ⟨rfl, e⟩ | ⟨rfl, e⟩ | ⟨-, e⟩ <;> rw [e] at h <;> cases h <;>
    simp [encode, Instr.operandCount]

/-- No instruction has more than two operand bytes (R45). -/
theorem operandCount_le_two (i : Instr) : i.operandCount ≤ 2 := by
  cases i <;> simp [Instr.operandCount]

/-- The filler bytes that the decoder hands to the switch past the end of a list are never operand bytes. -/
theorem take_getD_zero_one (d : Byte) {n : Nat} {l : List Byte} (htwo : n ≤ 2)
    (hlen : n ≤ l.length) : [l.getD 0 d, l.getD 1 d].take n = l.take n := by
  match n, l, htwo, hlen with
  | 0, _, _, _ => rfl
  | 1, _ :: _, _, _ => rfl
  | 2, _ :: _ :: _, _, _ => rfl

/-- Bytes that decode are the encoding of what they decode to, followed by the bytes left over. -/
theorem eq_encode_append_of_decode {bytes rest : List Byte} {i : Instr}
    (h : decode bytes = .ok (i, rest)) : bytes = encode i ++ rest := by
  cases bytes with
  | nil => cases h
  | cons op tail =>
    rw [decode_cons] at h
    split at h
    · cases h
    · next j hop =>
      split_ifs at h with hlen
      cases h
      rw [encode_of_decodeOp hop, take_getD_zero_one 0x00 (operandCount_le_two i) hlen,
        List.cons_append, List.take_append_drop]

/-- An encoding decodes to its instruction, whatever bytes follow. -/
theorem decode_encode_append (i : Instr) (rest : List Byte) :
    decode (encode i ++ rest) = .ok (i, rest) := by
  cases i <;> simp [encode, decode_cons, decodeOp, Instr.operandCount]

/-- The decoder and the encoding are inverse to each other. -/
theorem decode_eq_ok_iff {bytes rest : List Byte} {i : Instr} :
    decode bytes = .ok (i, rest) ↔ bytes = encode i ++ rest :=
  ⟨eq_encode_append_of_decode, fun h => h ▸ decode_encode_append i rest⟩

/-- Settles O1, by `decode_eq_ok_iff`. -/
theorem bytesDecodeExactlyFromTheEncoding : Obligations.BytesDecodeExactlyFromTheEncoding :=
  fun _ _ _ _ => decode_eq_ok_iff

/-- The shape of an encoding, for every instruction. -/
theorem encodeShape : (i : Instr) → Laws.EncodeShape.Statement i
  | .brk => Laws.EncodeShape.brk
  | .tax => Laws.EncodeShape.tax
  | .inx => Laws.EncodeShape.inx
  | .ldaImm d8 => Laws.EncodeShape.ldaImm d8
  | .ldaZp d8 => Laws.EncodeShape.ldaZp d8
  | .ldaAbs a16 => Laws.EncodeShape.ldaAbs a16
  | .staZp d8 => Laws.EncodeShape.staZp d8
  | .staZpX d8 => Laws.EncodeShape.staZpX d8

/-- Bytes of the length that R48 tells from byte 0 are the encoding of an instruction. -/
theorem exists_encode_of_wellFormedBytes {bytes : List Byte} (h : wellFormedBytes bytes = true) :
    ∃ i, bytes = encode i := by
  match bytes with
  | [] => cases h
  | [b] =>
    obtain (rfl | rfl) | rfl : (b = 0x00 ∨ b = 0xAA) ∨ b = 0xE8 := by
      simpa [wellFormedBytes] using h
    exacts [⟨.brk, rfl⟩, ⟨.tax, rfl⟩, ⟨.inx, rfl⟩]
  | [b, d8] =>
    obtain ((rfl | rfl) | rfl) | rfl : ((b = 0xA9 ∨ b = 0xA5) ∨ b = 0x85) ∨ b = 0x95 := by
      simpa [wellFormedBytes] using h
    exacts [⟨.ldaImm d8, rfl⟩, ⟨.ldaZp d8, rfl⟩, ⟨.staZp d8, rfl⟩, ⟨.staZpX d8, rfl⟩]
  | [b, lo, hi] =>
    obtain rfl : b = 0xAD := by simpa [wellFormedBytes] using h
    exact ⟨.ldaAbs (concat16 hi lo), by simp [encode]⟩
  | _ :: _ :: _ :: _ :: _ => cases h

/-- Settles O2: both say that the bytes are the encoding of an instruction. -/
theorem lengthIsToldByTheOpcodeByte : Obligations.LengthIsToldByTheOpcodeByte := by
  intro bytes
  simp only [decode_eq_ok_iff, List.append_nil]
  constructor
  · exact exists_encode_of_wellFormedBytes
  · rintro ⟨i, rfl⟩
    obtain ⟨-, -, -, hwf⟩ := encodeShape i
    exact hwf

/-! ### The opcode metadata

The table has the row of each opcode byte and no other (30_encoding.md rules R49, R55 and R56). -/

/-- The table has a row for exactly the eight opcodes (R55). -/
theorem map_code_opcodeTable_perm : (opcodeTable.map Descriptor.code).Perm opcodes := by decide

/-- No row is found exactly for the illegal bytes (R56). -/
theorem lookup_eq_none_iff {b : Byte} : lookup b = none ↔ isOpcode b = false := by
  have hcodes : b ∈ opcodeTable.map Descriptor.code ↔ isOpcode b = true := by
    rw [map_code_opcodeTable_perm.mem_iff, isOpcode, List.contains_iff_mem]
  rw [← Bool.not_eq_true, ← hcodes, lookup, List.find?_eq_none]
  simp only [beq_iff_eq, List.mem_map, not_exists, not_and]

/-- A running core faults with the byte at PC exactly when that byte is illegal (R51, R95). -/
theorem step_faults_iff {s : State} (hrun : s.runState = .running) :
    (∃ t, step s = .next t ∧ t.runState = .faulted (.unsupportedOpcode (s.read8 s.pc))) ↔
      isOpcode (s.read8 s.pc) = false := by
  constructor
  · rintro ⟨t, h, hfault⟩
    rw [step_runState h] at hfault
    split_ifs at hfault with _ hop
    exact Bool.eq_false_of_not_eq_true hop
  · exact fun hill => ⟨_, step_illegal hrun hill, rfl⟩

/-- Settles O4: `lookup` and the step both answer by whether the byte is an opcode. -/
theorem lookupKnowsExactlyTheImplementedOpcodes :
    Obligations.LookupKnowsExactlyTheImplementedOpcodes := by
  refine ⟨fun b => lookup_eq_none_iff.trans isOpcode_eq_false_iff, fun b d h => ?_,
    fun s hrun => lookup_eq_none_iff.trans (step_faults_iff hrun).symm⟩
  exact ⟨by simpa using List.find?_some h, List.mem_of_find?_eq_some h⟩

/-- The row of an instruction's opcode has its mnemonic, its mode and the length of its encoding (R49,
R55). -/
theorem lookup_opcode (i : Instr) :
    ∃ d, lookup i.opcode = some d ∧ d.mnemonic = i.mnemonic ∧ d.mode = i.mode ∧
      d.length = (encode i).length := by
  cases i <;> exact ⟨_, rfl, rfl, rfl, rfl⟩

/-- Settles O5: decoded bytes begin with the encoding, whose row is `lookup_opcode`'s. -/
theorem metadataAgreesWithTheDecoder : Obligations.MetadataAgreesWithTheDecoder := by
  refine ⟨by decide, fun bytes rest i h => ?_⟩
  obtain rfl := decode_eq_ok_iff.mp h
  obtain ⟨d, hlookup, hmnemonic, hmode, hlength⟩ := lookup_opcode i
  have hhead : (encode i ++ rest).headD 0x00 = i.opcode := by
    obtain ⟨operands, e⟩ := encode_head i
    rw [e]
    rfl
  exact ⟨d, hhead ▸ hlookup, hmnemonic, hmode, by rw [List.length_append, hlength]⟩

/-! ### The spec's pseudocode

The handlers of R80 to R89, which resolve their operand from memory at execute time, are the meanings
of the instructions that carry the operand read there (R47, log 2). -/

/-- The LDA handlers load the byte at the address their mode resolves to. -/
theorem pseudoLda_of_resolve {mode : AddrMode} {s : State} {ea : Word} (h : resolve mode s = .ok ea)
    (k : Word) : pseudoLda mode k s = loadA (s.read8 ea) k s := by
  rw [pseudoLda, h]
  rfl

/-- The STA handlers store to the address their mode resolves to. -/
theorem pseudoSta_of_resolve {mode : AddrMode} {s : State} {ea : Word} (h : resolve mode s = .ok ea)
    (k : Word) : pseudoSta mode k s = storeA ea k s := by
  rw [pseudoSta, h]
  rfl

/-- Immediate resolves to the operand address itself (R69). -/
theorem resolve_immediate (s : State) : resolve .immediate s = .ok s.pc := rfl

/-- ZeroPage resolves to the operand byte (R70). -/
theorem resolve_zeroPage (s : State) : resolve .zeroPage s = .ok (eaZeroPage (s.read8 s.pc)) := rfl

/-- ZeroPage_X adds X to the operand byte (R71). -/
theorem resolve_zeroPageX (s : State) :
    resolve .zeroPageX s = .ok (eaZeroPageIndexed (s.read8 s.pc) s.x) := rfl

/-- Absolute resolves to the operand word (R72). -/
theorem resolve_absolute (s : State) : resolve .absolute s = .ok (s.read16 s.pc) := rfl

/-- After the fetch the operand word is made of the two bytes that the decoder read. -/
theorem read16_afterFetch (s : State) :
    (afterFetch s).read16 (afterFetch s).pc =
      concat16 (s.read8 (s.pc + 2)) (s.read8 (s.pc + 1)) := by
  rw [← pc_add_two]
  rfl

/-- The meaning of the instruction that the switch finds at PC is the handler that the pseudocode
selects. -/
theorem exec_eq_pseudoStep {s : State} {i : Instr}
    (hi : decodeOp (s.read8 s.pc) (s.read8 (s.pc + 1)) (s.read8 (s.pc + 2)) = some i) :
    exec i (afterFetch s) = .next (pseudoStep s) := by
  rcases decodeOp_cases (s.read8 s.pc) (s.read8 (s.pc + 1)) (s.read8 (s.pc + 2)) with
    ⟨hb, e⟩ | ⟨hb, e⟩ | ⟨hb, e⟩ | ⟨hb, e⟩ | ⟨hb, e⟩ | ⟨hb, e⟩ | ⟨hb, e⟩ | ⟨hb, e⟩ | ⟨-, e⟩ <;>
    cases hi.symm.trans e <;> rw [pseudoStep, hb]
  · rfl
  · rfl
  · rfl
  · exact congrArg Host.Outcome.next (pseudoLda_of_resolve (resolve_immediate (afterFetch s)) 1).symm
  · exact congrArg Host.Outcome.next (pseudoLda_of_resolve (resolve_zeroPage (afterFetch s)) 1).symm
  · rw [← read16_afterFetch]
    exact congrArg Host.Outcome.next (pseudoLda_of_resolve (resolve_absolute (afterFetch s)) 2).symm
  · exact congrArg Host.Outcome.next (pseudoSta_of_resolve (resolve_zeroPage (afterFetch s)) 1).symm
  · exact congrArg Host.Outcome.next (pseudoSta_of_resolve (resolve_zeroPageX (afterFetch s)) 1).symm

/-- On an illegal byte the pseudocode raises the fault of the fetch (R59, R95). -/
theorem pseudoStep_of_illegal {s : State} (hill : isOpcode (s.read8 s.pc) = false) :
    pseudoStep s = unsupportedOpcode s := by
  simp only [isOpcode_eq_false_iff, List.mem_cons, not_or] at hill
  obtain ⟨hbrk, hstaZp, hstaZpX, hldaZp, hldaImm, htax, hldaAbs, hinx, -⟩ := hill
  rw [pseudoStep, if_neg hbrk, if_neg htax, if_neg hinx, if_neg hldaImm, if_neg hldaZp,
    if_neg hldaAbs, if_neg hstaZp, if_neg hstaZpX]
  rfl

/-- Settles O14: an opcode's meaning is the handler of the pseudocode, and both fault on an illegal
byte. -/
theorem stepIsThePseudocodeOfTheSpec : Obligations.StepIsThePseudocodeOfTheSpec := by
  intro s hrun
  cases hi : decodeOp (s.read8 s.pc) (s.read8 (s.pc + 1)) (s.read8 (s.pc + 2)) with
  | some i => rw [step_of_decodeOp hrun hi, exec_eq_pseudoStep hi]
  | none =>
    have hill := isOpcode_of_decodeOp_none hi
    rw [step_illegal hrun hill, pseudoStep_of_illegal hill]

/-! ### The fault of an illegal byte

What the core and the host see after it (60_exceptions.md rules R95, R97 and R98). -/

/-- A core that is not running has no next state (R120). -/
theorem step_ne_next {s : State} (h : s.runState ≠ .running) (u : State) : step s ≠ .next u :=
  fun hu => h (step_next_running hu)

/-- Settles O37: `unsupportedOpcode` writes PC and the run state alone, and a Faulted core answers the
accessors and has no move. -/
theorem illegalOpcodeFaultsWithItsByte : Obligations.IllegalOpcodeFaultsWithItsByte := by
  intro s hrun hill
  have hstep := step_illegal hrun (isOpcode_eq_false_iff.mpr hill)
  have hdata : SameData s (unsupportedOpcode s) := ⟨rfl, rfl, rfl, rfl, fun _ => rfl⟩
  have hstopped : (unsupportedOpcode s).runState ≠ .running := nofun
  exact ⟨unsupportedOpcode s, hstep, rfl, rfl, hdata, rfl, rfl, rfl, rfl, rfl, rfl, fun _ => rfl,
    step_ne_next hstopped⟩

end Sys2Proof.Machine

namespace Sys2Proof.Machine

/-! ### The flag generator

The bits of P after `SetZN`, each told by the value or by the P before (40_fetch_dispatch.md rule R63). -/

/-- Bit 7 of a byte is set from 0x80 upward. -/
theorem getLsbD_seven_iff (v : Byte) : v.getLsbD 7 = true ↔ 0x80 ≤ v.toNat := by
  have hmsb : v.msb = v.getLsbD 7 := BitVec.msb_eq_getLsbD_last v
  rw [← hmsb, BitVec.msb_eq_decide, decide_eq_true_iff]

/-- `SetZN` keeps the six bits of P other than Z and N. -/
theorem flagsZN_getLsbD_kept (v p : Byte) {i : Nat} (hi : i < 8) (hz : i ≠ 1) (hn : i ≠ 7) :
    (flagsZN v p).getLsbD i = p.getLsbD i := by
  obtain ⟨hkeep, hzero, hneg⟩ := flag_masks i hi
  rw [flagsZN_getLsbD, hkeep, hzero, hneg]
  simp [bne, beq_false_of_ne hz, beq_false_of_ne hn]

/-- The status word that `SetZN` leaves, in the terms of R63. -/
theorem flagsFrom_flagsZN (v p : Byte) : FlagsFrom v p (flagsZN v p) := by
  refine ⟨?_, ?_, fun i hi hz hn => flagsZN_getLsbD_kept v p hi hz hn⟩
  · rw [flagsZN_getLsbD_one, decide_eq_true_iff]
  · rw [flagsZN_getLsbD_seven, getLsbD_seven_iff]

/-- Z after `SetZN`. -/
theorem setZN_flagZ (v : Byte) (s : State) : (setZN v s).flagZ = decide (v = 0x00) :=
  flagsZN_getLsbD_one v s.p

/-- N after `SetZN`. -/
theorem setZN_flagN (v : Byte) (s : State) : (setZN v s).flagN = decide (0x80 ≤ v.toNat) := by
  rw [State.flagN, setZN_p, flagsZN_getLsbD_seven, Bool.eq_iff_iff, getLsbD_seven_iff,
    decide_eq_true_iff]

/-- Settles O12: `flagsFrom_flagsZN` for P, and the two flags in each of the three ranges of the value. -/
theorem flagGeneratorRewritesOnlyZeroAndNegative :
    Obligations.FlagGeneratorRewritesOnlyZeroAndNegative := by
  intro v s
  have hzero : v = 0x00 ↔ v.toNat = 0 := BitVec.toNat_inj.symm
  rw [setZN_flagZ, setZN_flagN]
  simp only [decide_eq_true_iff, decide_eq_false_iff_not, hzero]
  refine ⟨flagsFrom_flagsZN v s.p, fun h => ?_, fun hlow hhigh => ?_, fun h => ?_,
    rfl, rfl, rfl, rfl, rfl, rfl⟩ <;> omega

/-! ### The step and the stopped core -/

/-- Settles O13, by `step_of_decode`. -/
theorem stepRunsTheDecodedInstruction : Obligations.StepRunsTheDecodedInstruction :=
  fun _ _ _ => step_of_decode

/-- A run ends at once where the core has no next state (R110). -/
theorem coreRun_of_no_next {s : State} (h : ∀ t, step s ≠ .next t) (n : Nat) : coreRun n s = s := by
  cases n with
  | zero => rfl
  | succ n =>
    rw [coreRun]
    cases hs : step s with
    | next t => exact absurd hs (h t)
    | fault _ => rfl
    | refused _ => rfl

/-- Settles O49: a core that is not running has no next state. -/
theorem stoppedCoreKeepsItsState : Obligations.StoppedCoreKeepsItsState :=
  fun _ n h => coreRun_of_no_next (step_ne_next h) n

end Sys2Proof.Machine

namespace Sys2Proof.Machine

/-! ### The addressing resolver

The address of each mode by value; the forms the modes share are in Laws/Operands (41_addressing.md). -/

/-- Settles O23: each mode's address is the operand form whose value Laws/Operands gives. -/
theorem resolverOfTheUsedModes : Obligations.ResolverOfTheUsedModes := fun s =>
  ⟨resolve_immediate s,
    ⟨_, resolve_zeroPage s, eaZeroPage_toNat _⟩,
    ⟨_, resolve_zeroPageX s, eaZeroPageIndexed_toNat _ _⟩,
    ⟨_, resolve_absolute s, State.read16_toNat s s.pc⟩⟩

/-- ZeroPage_Y adds Y to the operand byte (R73). -/
theorem resolve_zeroPageY (s : State) :
    resolve .zeroPageY s = .ok (eaZeroPageIndexed (s.read8 s.pc) s.y) := rfl

/-- Absolute_X adds X to the operand word (R74). -/
theorem resolve_absoluteX (s : State) :
    resolve .absoluteX s = .ok (eaAbsoluteIndexed (s.read16 s.pc) s.x) := rfl

/-- Absolute_Y adds Y to the operand word (R75). -/
theorem resolve_absoluteY (s : State) :
    resolve .absoluteY s = .ok (eaAbsoluteIndexed (s.read16 s.pc) s.y) := rfl

/-- Indirect_X reads its address at the operand byte plus X (R76). -/
theorem resolve_indirectX (s : State) :
    resolve .indirectX s = .ok (zeroPagePointer true (s.read8 s.pc + s.x) s) := rfl

/-- Indirect_Y indexes the address held at the operand byte as the absolute forms index theirs (R77). -/
theorem resolveWith_indirectY (wrap : Bool) (s : State) :
    resolveWith wrap .indirectY s =
      .ok (eaAbsoluteIndexed (zeroPagePointer wrap (s.read8 s.pc) s) s.y) := rfl

/-- The address held at a zero-page pointer, from the cell of the pointer and the next one, which wraps
inside the zero page or does not (R76, R77). -/
theorem zeroPagePointer_toNat {wrap : Bool} {ptr : Byte} {lo hi : Word} (s : State)
    (hlo : lo.toNat = ptr.toNat)
    (hhi : hi.toNat = if wrap then (ptr.toNat + 1) % 256 else ptr.toNat + 1) :
    (zeroPagePointer wrap ptr s).toNat = (s.read8 hi).toNat * 256 + (s.read8 lo).toNat := by
  have elo : zext16 ptr = lo := BitVec.eq_of_toNat_eq (by rw [zext16_toNat, hlo])
  have ehi : (if wrap then zext16 (ptr + 1) else zext16 ptr + 1) = hi := by
    apply BitVec.eq_of_toNat_eq
    rw [hhi]
    cases wrap with
    | true => exact (zext16_toNat (ptr + 1)).trans (BitVec.toNat_add ptr 1)
    | false =>
      have hlt : ptr.toNat + 1 < 65536 := by have := ptr.isLt; omega
      calc (zext16 ptr + 1).toNat
        _ = (ptr.toNat + 1) % 65536 := by rw [BitVec.toNat_add, zext16_toNat]; rfl
        _ = ptr.toNat + 1 := Nat.mod_eq_of_lt hlt
  rw [zeroPagePointer, ← apply_ite s.read8, ehi, elo, concat16_toNat]

/-- An indexed address of the word at `addr`, from the two bytes there (R28, R74, R75). -/
theorem eaAbsoluteIndexed_read16_toNat (s : State) (addr : Word) (i : Byte) :
    (eaAbsoluteIndexed (s.read16 addr) i).toNat =
      ((s.read8 (addr + 1)).toNat * 256 + (s.read8 addr).toNat + i.toNat) % 65536 := by
  rw [eaAbsoluteIndexed_toNat, State.read16_toNat]

/-- Settles O24: the indexed forms by their values, Indirect_X by `zeroPagePointer_toNat` at the operand
byte plus X. -/
theorem resolverOfTheUnusedModes : Obligations.ResolverOfTheUnusedModes := by
  refine fun s => ⟨⟨_, resolve_zeroPageY s, eaZeroPageIndexed_toNat _ _⟩,
    ⟨_, resolve_absoluteX s, eaAbsoluteIndexed_read16_toNat s s.pc s.x⟩,
    ⟨_, resolve_absoluteY s, eaAbsoluteIndexed_read16_toNat s s.pc s.y⟩,
    fun lo hi hlo hhi => ⟨_, resolve_indirectX s, zeroPagePointer_toNat s ?_ ?_⟩⟩
  · rw [hlo, BitVec.toNat_add]
  · rw [hhi, BitVec.toNat_add, if_pos rfl, Nat.mod_add_mod]

/-- Settles O25: the cell after the pointer is the one `zeroPagePointer_toNat` reads, at 0xFF by the value
of the parameter and below it for both values. -/
theorem indirectYUnderEitherWrap : Obligations.IndirectYUnderEitherWrap := by
  intro wrap s lo hi hlo hnext hlast
  have hhi : hi.toNat =
      if wrap then ((s.read8 s.pc).toNat + 1) % 256 else (s.read8 s.pc).toNat + 1 := by
    by_cases hptr : s.read8 s.pc = 0xFF
    · rw [hlast hptr, hptr]
      rfl
    · have hlt : (s.read8 s.pc).toNat + 1 < 256 := by
        have hne : (s.read8 s.pc).toNat ≠ 255 := fun h => hptr (BitVec.eq_of_toNat_eq h)
        have := (s.read8 s.pc).isLt
        omega
      rw [hnext hptr, hlo, Nat.mod_eq_of_lt hlt, ite_self]
  exact ⟨_, resolveWith_indirectY wrap s,
    by rw [eaAbsoluteIndexed_toNat, zeroPagePointer_toNat s hlo hhi]⟩

/-- Mode None resolves to the cause InvalidAddressingMode (R78, R94). -/
theorem resolveWith_none (wrap : Bool) (s : State) :
    resolveWith wrap .none s = .error .invalidAddressingMode := rfl

/-- Settles O26: every other mode resolves, by `resolveWith_ok`. -/
theorem resolverFailsOnlyOnModeNone : Obligations.ResolverFailsOnlyOnModeNone := by
  intro wrap mode s c
  by_cases hmode : mode = .none
  · rw [hmode, resolveWith_none, Except.error.injEq, eq_self, true_and, eq_comm]
  · obtain ⟨ea, hea⟩ := resolveWith_ok hmode wrap s
    rw [hea]
    exact ⟨nofun, fun ⟨hnone, _⟩ => absurd hnone hmode⟩

end Sys2Proof.Machine

namespace Sys2Proof.Machine

/-! ### Loads

The load of R85 in the terms of `LoadsByte`, and the step of each LDA as that load
(42_load_store.md rules R80 to R82). -/

/-- A load takes the byte and changes nothing but A, the two flags and PC (R85). -/
theorem loadsByte_loadA (v : Byte) (k : Word) (s : State) : LoadsByte v k s (loadA v k s) :=
  ⟨rfl, flagsFrom_flagsZN v s.p, rfl, rfl, rfl, rfl, fun _ => rfl⟩

/-- A load after the fetch passes the opcode byte and the operand bytes. -/
theorem loadA_afterFetch (v : Byte) (k : Word) (s : State) :
    loadA v k (afterFetch s) = loadA v (1 + k) s := by
  simp only [loadA_eq, afterFetch, State.advancePc, BitVec.add_assoc]

/-- The step of LDA Immediate (R80). -/
theorem step_ldaImm {s : State} (hrun : s.runState = .running) (hb : s.read8 s.pc = 0xA9) :
    step s = .next (loadA (s.read8 (s.pc + 1)) 2 s) := by
  rw [step_of_decodeOp hrun (i := .ldaImm _) (by rw [hb]; rfl)]
  exact congrArg Host.Outcome.next (loadA_afterFetch _ 1 s)

/-- The step of LDA ZeroPage (R81). -/
theorem step_ldaZp {s : State} (hrun : s.runState = .running) (hb : s.read8 s.pc = 0xA5) :
    step s = .next (loadA (s.read8 (eaZeroPage (s.read8 (s.pc + 1)))) 2 s) := by
  rw [step_of_decodeOp hrun (i := .ldaZp _) (by rw [hb]; rfl)]
  exact congrArg Host.Outcome.next (loadA_afterFetch _ 1 s)

/-- Settles O27: the meaning and the step are the load of the operand byte. -/
theorem ldaImmediateLoadsTheOperandByte : Obligations.LdaImmediateLoadsTheOperandByte :=
  ⟨fun d8 s => ⟨_, rfl, loadsByte_loadA d8 1 s⟩,
    fun s hrun hb => ⟨_, step_ldaImm hrun hb, loadsByte_loadA _ 2 s⟩⟩

/-- The address of a ZeroPage operand is told by its value (R70). -/
theorem eq_eaZeroPage {ea : Word} {d8 : Byte} (h : ea.toNat = d8.toNat) : ea = eaZeroPage d8 :=
  BitVec.eq_of_toNat_eq (h.trans (eaZeroPage_toNat d8).symm)

/-- Settles O28: the meaning and the step are the load of the cell at the zero-extended operand byte. -/
theorem ldaZeroPageLoadsTheCell : Obligations.LdaZeroPageLoadsTheCell := by
  constructor
  · intro d8 s ea hea
    rw [eq_eaZeroPage hea]
    exact ⟨_, rfl, loadsByte_loadA _ 1 s⟩
  · intro s ea hrun hb hea
    rw [eq_eaZeroPage hea]
    exact ⟨_, step_ldaZp hrun hb, loadsByte_loadA _ 2 s⟩

/-- Settles O29: the meaning and the step are the load of the cell at the little-endian operand word. -/
theorem ldaAbsoluteLoadsTheCell : Obligations.LdaAbsoluteLoadsTheCell := by
  refine ⟨fun a16 s => ⟨_, rfl, loadsByte_loadA _ 2 s⟩, fun s ea hrun hb hea => ?_⟩
  have hword : ea = concat16 (s.read8 (s.pc + 2)) (s.read8 (s.pc + 1)) :=
    BitVec.eq_of_toNat_eq (hea.trans (concat16_toNat _ _).symm)
  have hstep : step s = .next (loadA (s.read8 ea) 3 s) := by
    rw [step_ldaAbs hrun hb, loadA_afterFetch, hword]
    rfl
  exact ⟨_, hstep, loadsByte_loadA _ 3 s⟩

/-! ### Stores

The store of R85 in the terms of `StoresByte`, and its frame, which needs no canonical memory
(42_load_store.md rules R83 to R85). -/

/-- A store leaves every other cell alone, in any memory (R85). -/
theorem storeA_read8_other {ea b : Word} (h : b ≠ ea) (k : Word) (s : State) :
    (storeA ea k s).read8 b = s.read8 b := State.read8_write8_other s h s.a

/-- In canonical memory a store puts A in the cell and changes nothing else but PC (R85). -/
theorem storesByte_storeA {s : State} (hwf : s.mem.wf) (ea k : Word) :
    StoresByte ea k s (storeA ea k s) :=
  ⟨State.read8_write8_same hwf ea s.a, fun _ hb => storeA_read8_other hb k s,
    rfl, rfl, rfl, rfl, rfl, rfl⟩

/-- The step of either STA puts A in the cell of its address (R83, R84). -/
theorem storesByte_step_sta {s : State} {ea : Word} (hwf : s.mem.wf) (hrun : s.runState = .running)
    (hb : s.read8 s.pc = 0x85 ∧ eaZeroPage (s.read8 (s.pc + 1)) = ea ∨
      s.read8 s.pc = 0x95 ∧ eaZeroPageIndexed (s.read8 (s.pc + 1)) s.x = ea) :
    ∃ t, step s = .next t ∧ StoresByte ea 2 s t :=
  ⟨_, step_sta hrun hb, storesByte_storeA hwf ea 2⟩

/-- Settles O30: the meaning and the step are the store at the operand byte. -/
theorem staZeroPageStoresAInTheCell : Obligations.StaZeroPageStoresAInTheCell :=
  ⟨fun d8 _ hwf => ⟨eaZeroPage_toNat d8, _, rfl, storesByte_storeA hwf _ 1⟩,
    fun _ hwf hrun hb => storesByte_step_sta hwf hrun (.inl ⟨hb, rfl⟩)⟩

/-- Settles O31: the meaning and the step are the store at the operand byte plus X. -/
theorem staZeroPageXStoresAInTheCell : Obligations.StaZeroPageXStoresAInTheCell :=
  ⟨fun d8 s hwf => ⟨eaZeroPageIndexed_toNat d8 s.x, _, rfl, storesByte_storeA hwf _ 1⟩,
    fun _ hwf hrun hb => storesByte_step_sta hwf hrun (.inr ⟨hb, rfl⟩)⟩

/-- A byte extended to an address lies in the zero page. -/
theorem zext16_lt (v : Byte) : (zext16 v).toNat < 0x0100 := by
  rw [zext16_toNat]
  exact v.isLt

/-- Settles O32: either meaning is a store, at an address that is one byte extended. -/
theorem storesLeaveEveryOtherByte : Obligations.StoresLeaveEveryOtherByte := by
  intro d8 s t ea h
  obtain ⟨hpage, rfl⟩ : ea.toNat < 0x0100 ∧ storeA ea 1 s = t := by
    rcases h with ⟨rfl, h⟩ | ⟨rfl, h⟩
    · exact ⟨zext16_lt d8, Host.Outcome.next.inj h⟩
    · exact ⟨zext16_lt (d8 + s.x), Host.Outcome.next.inj h⟩
  exact ⟨fun b hb => storeA_read8_other hb 1 s, fun hwf => State.write8_wf hwf ea s.a, hpage⟩

end Sys2Proof.Machine

namespace Sys2Proof.Machine

/-! ### TAX and INX

The write of X that TAX and INX share, in the terms of `WritesX`, and the step of each as that write
(43_register_ops.md rules R86 to R88). -/

/-- PC advanced by nothing leaves the state as it is. -/
theorem State.advancePc_zero (s : State) : s.advancePc 0 = s := by
  simp only [State.advancePc, BitVec.ofNat_eq_ofNat, BitVec.add_zero]

/-- A write of X after PC has advanced by `k` changes nothing but X, the two flags and PC (R88). -/
theorem writesX_writeX_advancePc (v : Byte) (k : Word) (s : State) :
    WritesX v k s (writeX v (s.advancePc k)) :=
  ⟨rfl, flagsFrom_flagsZN v s.p, rfl, rfl, rfl, rfl, fun _ => rfl⟩

/-- A write of X changes nothing but X and the two flags (R88). -/
theorem writesX_writeX (v : Byte) (s : State) : WritesX v 0 s (writeX v s) := by
  have h := writesX_writeX_advancePc v 0 s
  rwa [State.advancePc_zero] at h

/-- The step of TAX (R86). -/
theorem step_tax {s : State} (hrun : s.runState = .running) (hb : s.read8 s.pc = 0xAA) :
    step s = .next (writeX s.a (afterFetch s)) :=
  step_of_decodeOp hrun (i := .tax) (by rw [hb]; rfl)

/-- Settles O33: the meaning and the step are the write of A to X. -/
theorem taxCopiesAToX : Obligations.TaxCopiesAToX :=
  ⟨fun s => ⟨_, rfl, writesX_writeX s.a s⟩,
    fun s hrun hb => ⟨_, step_tax hrun hb, writesX_writeX_advancePc s.a 1 s⟩⟩

/-- The byte after `x`, told by its value modulo 256 (R87). -/
theorem eq_add_one_of_toNat {v x : Byte} (h : v.toNat = (x.toNat + 1) % 256) : v = x + 1 :=
  BitVec.eq_of_toNat_eq (h.trans (BitVec.toNat_add x 1).symm)

/-- Settles O34: the meaning and the step are the write of X + 1 to X. -/
theorem inxIncrementsXModulo256 : Obligations.InxIncrementsXModulo256 := by
  constructor
  · intro s v hv
    rw [eq_add_one_of_toNat hv]
    exact ⟨_, rfl, writesX_writeX (s.x + 1) s⟩
  · intro s v hv hrun hb
    rw [eq_add_one_of_toNat hv]
    exact ⟨_, step_inx hrun hb, writesX_writeX_advancePc (s.x + 1) 1 s⟩

/-- Settles O35: the first INX writes 0xFF + 1 = 0x00 and leaves the core running at the second, which
writes 0x01. -/
theorem twoInxFromFFWrapThroughZero : Obligations.TwoInxFromFFWrapThroughZero := by
  intro s hrun hx hb hb'
  have hfirst : step s = .next (writeX 0x00 (afterFetch s)) := by
    rw [step_inx hrun hb, hx]
    rfl
  have hsecond : step (writeX 0x00 (afterFetch s)) =
      .next (writeX 0x01 (afterFetch (writeX 0x00 (afterFetch s)))) := step_inx hrun hb'
  have hone : coreRun 1 s = writeX 0x00 (afterFetch s) := coreRun_succ hfirst 0
  have htwo : coreRun 2 s = writeX 0x01 (afterFetch (writeX 0x00 (afterFetch s))) := by
    rw [coreRun_succ hfirst, coreRun_succ hsecond, coreRun]
  rw [hone, htwo]
  exact ⟨rfl, setZN_flagZ 0x00 _, setZN_flagN 0x00 _, rfl, setZN_flagZ 0x01 _, setZN_flagN 0x01 _⟩

end Sys2Proof.Machine

namespace Sys2Proof.Machine

/-! ### BRK and the host's run

BRK and the entry of `run` both write the run state alone. The host's `run` starts a Stopped core and no
other, and its return tells the two ways a run can end apart (44_system.md rule R89,
70_reset_and_hazards.md rules R116, R120 and R121). -/

/-- Entering another run state changes no register and no byte of memory. -/
theorem sameData_setRun (s : State) (r : RunState) : SameData s (s.setRun r) :=
  ⟨rfl, rfl, rfl, rfl, State.setRun_read8 s r⟩

/-- A Stopped core has the host's `run` (R120). -/
theorem hostMove_run {s : State} (h : s.runState = .stopped) :
    hostMove .run s = .next (enterRun s) := by
  rw [hostMove, h]
  rfl

/-- The host's `run` has a move in Stopped alone (R120). -/
theorem stopped_of_hostMove_run {s t : State} (h : hostMove .run s = .next t) :
    s.runState = .stopped := by
  obtain ⟨hmove, -⟩ := hostMove_next h
  cases hr : s.runState with
  | stopped => rfl
  | _ => rw [hr] at hmove; cases hmove

/-- Settles O36: BRK writes the run state alone, and a Halted core has neither a step nor a `run` until a
reset has stopped it. -/
theorem brkHaltsAndChangesNothingElse : Obligations.BrkHaltsAndChangesNothingElse := by
  refine ⟨fun s => ⟨_, rfl, rfl, rfl, sameData_setRun s .halted⟩, fun s hrun hb => ?_⟩
  have hnotRunning : ((afterFetch s).setRun .halted).runState ≠ .running := nofun
  have hnoRun : ∀ u, hostMove .run ((afterFetch s).setRun .halted) ≠ .next u :=
    fun _ hu => nomatch stopped_of_hostMove_run hu
  exact ⟨_, step_brk hrun hb, rfl, rfl, sameData_setRun (afterFetch s) .halted, rfl,
    step_ne_next hnotRunning, hnoRun, _, _, hostMove_reset hnotRunning, hostMove_run rfl, rfl⟩

/-- Settles O47: the byte at PC of a core just powered on is BRK's, and the state its step reaches is Halted,
which every longer run keeps. -/
theorem runStraightAfterPowerOnHaltsAtOnce : Obligations.RunStraightAfterPowerOnHaltsAtOnce := by
  refine ⟨fun s h => ⟨_, hostMove_run h, rfl, rfl, sameData_setRun s .running⟩, ?_⟩
  have hstep : step (enterRun State.powerOn) =
      .next { State.powerOn with pc := 0x0001, runState := .halted } :=
    step_brk rfl (Memory.read_nil _)
  refine ⟨_, hostMove_run rfl, hstep, fun n hn => ?_⟩
  obtain ⟨k, rfl⟩ := Nat.exists_eq_add_of_le' hn
  rw [coreRun_succ hstep]
  exact stoppedCoreKeepsItsState _ k (by decide)

/-- Settles O48, one case per run state. -/
theorem runReturnTellsBrkFromAFault : Obligations.RunReturnTellsBrkFromAFault := by
  intro s
  cases h : s.runState <;> simp [runReturn, State.finished, h]

end Sys2Proof.Machine

namespace Sys2Proof.Machine

/-! ### Raising an exception

`raise` writes the run state alone, and that run state already decides the rest: a core that is not Running
has no step, and `run` returns the cause of a Faulted one (60_exceptions.md rules R98 and R102,
70_reset_and_hazards.md rule R121). -/

/-- Settles O38, from what a core that is not Running can do (O16) and what `run` returns (O48). -/
theorem raiseStopsTheCoreAndSavesNothing : Obligations.RaiseStopsTheCoreAndSavesNothing := by
  intro c s
  have hfaulted : (raise c s).runState = .faulted c := raise_runState c s
  have hnotRunning : (raise c s).runState ≠ .running := nofun
  have hnotFinished : ¬ (raise c s).finished := nofun
  obtain ⟨-, herror, -⟩ := runReturnTellsBrkFromAFault (raise c s)
  exact ⟨hfaulted, raise_pc c s, sameData_setRun s (.faulted c), step_ne_next hnotRunning,
    (herror c).mpr hfaulted, hnotFinished⟩

end Sys2Proof.Machine

namespace Sys2Proof.Machine

/-! ### Host moves

The table of which move the host has when, said once (`hostHasMove_eq_false_iff`), what each move answers,
and the cells and the PC that a load followed by a reset leaves (70_reset_and_hazards.md rules R113 to R120). -/

/-- The cells without a move in the table of R120: the whole column of Running, and `run` outside Stopped. -/
theorem hostHasMove_eq_false_iff {r : RunState} {mv : HostMove} :
    hostHasMove r mv = false ↔ r = .running ∨ (mv = .run ∧ r ≠ .stopped) := by
  cases r <;> cases mv <;> simp [hostHasMove]

/-- The effect of an operation is never the refusal that stands for having no move. -/
theorem hostEffect_ne_hostNoMove (mv : HostMove) (s : State) :
    hostEffect mv s ≠ .refused .hostNoMove := by
  intro h
  cases mv with
  | load image => rw [hostEffect] at h; split at h <;> cases h
  | loadAndRun image => rw [hostEffect] at h; split at h <;> cases h
  | _ => cases h

/-- A move is refused as no move exactly where the table has none. -/
theorem hostMove_eq_hostNoMove_iff {mv : HostMove} {s : State} :
    hostMove mv s = .refused .hostNoMove ↔ hostHasMove s.runState mv = false := by
  cases hmove : hostHasMove s.runState mv with
  | false => simp [hostMove, hmove]
  | true => simp [hostMove, hmove, hostEffect_ne_hostNoMove]

/-- A core that is not Running gives the host every operation but `run` (R120). -/
theorem hostMove_eq_hostEffect {mv : HostMove} {s : State} (h : s.runState ≠ .running)
    (hmv : mv ≠ .run) : hostMove mv s = hostEffect mv s := by
  have hmove : hostHasMove s.runState mv ≠ false :=
    mt hostHasMove_eq_false_iff.mp (not_or.mpr ⟨h, fun hrun => hmv hrun.1⟩)
  rw [hostMove, if_pos (Bool.eq_true_of_not_eq_false hmove)]

/-- A move with a next state came from a core that was not Running (R120). -/
theorem not_running_of_hostMove {mv : HostMove} {s t : State} (h : hostMove mv s = .next t) :
    s.runState ≠ .running := by
  intro hrun
  rw [hostMove_eq_hostNoMove_iff.mpr (hostHasMove_eq_false_iff.mpr (.inl hrun))] at h
  cases h

/-- An image of at most 0x8000 bytes is one that `load` accepts (R114). -/
theorem wellFormedImage_of_length {image : List Byte} (h : image.length ≤ 0x8000) :
    wellFormedImage image = true := decide_eq_true h

/-- The accepted `load` (R114). -/
theorem hostMove_load {image : List Byte} {s : State} (h : s.runState ≠ .running)
    (hlen : image.length ≤ 0x8000) : hostMove (.load image) s = .next (loadImage image s) := by
  rw [hostMove_eq_hostEffect (mv := .load image) h nofun, hostEffect,
    if_pos (wellFormedImage_of_length hlen)]

/-- The accepted `load_and_run` (R117). -/
theorem hostMove_loadAndRun {image : List Byte} {s : State} (h : s.runState ≠ .running)
    (hlen : image.length ≤ 0x8000) :
    hostMove (.loadAndRun image) s = .next (enterRun (resetCore (loadImage image s))) := by
  rw [hostMove_eq_hostEffect (mv := .loadAndRun image) h nofun, hostEffect,
    if_pos (wellFormedImage_of_length hlen)]

/-- A `load` with a next state was accepted, and is `loadImage`. -/
theorem eq_loadImage_of_hostMove {image : List Byte} {s t : State}
    (h : hostMove (.load image) s = .next t) : image.length ≤ 0x8000 ∧ t = loadImage image s := by
  simpa using hostEffect_cases (hostMove_next h).2

/-- A reset with a next state is `resetCore`. -/
theorem eq_resetCore_of_hostMove {s t : State} (h : hostMove .reset s = .next t) :
    t = resetCore s := by
  simpa using hostEffect_cases (hostMove_next h).2

/-- A `run` with a next state is `enterRun`. -/
theorem eq_enterRun_of_hostMove {s t : State} (h : hostMove .run s = .next t) : t = enterRun s := by
  simpa using hostEffect_cases (hostMove_next h).2

/-- A `mem_write` with a next state writes its byte. -/
theorem eq_write8_of_hostMove {addr : Word} {v : Byte} {s t : State}
    (h : hostMove (.memWrite addr v) s = .next t) : t = s.write8 addr v := by
  simpa using hostEffect_cases (hostMove_next h).2

/-- An accepted load leaves the cells as R114 and R115 say. -/
theorem loadImage_holdsImage {image : List Byte} {s : State} (hwf : s.mem.wf)
    (hlen : image.length ≤ 0x8000) : HoldsImage image s (loadImage image s) := by
  refine ⟨fun i hi a ha hlow hhigh => ?_, loadImage_vector_low image hwf,
    loadImage_vector_high image hwf, fun a => loadImage_read8_of_not_loadWrites hlen s⟩
  have htop : Config.programOrigin.toNat + image.length ≤ Config.memSize :=
    Nat.add_le_add_left hlen 0x8000
  rw [loadImage_read8_beside_vector image s hlow hhigh]
  exact writeBytes_read8_image image hwf htop hi ha

/-- Reset takes PC from the two bytes of the vector, low byte first (R112, R113). -/
theorem resetCore_pc (s : State) :
    (resetCore s).pc = concat16 (s.read8 0xFFFD) (s.read8 0xFFFC) := rfl

/-- A reset after a load starts at the image (R113, R115). -/
theorem resetCore_loadImage_pc (image : List Byte) {s : State} (hwf : s.mem.wf) :
    (resetCore (loadImage image s)).pc = 0x8000 := by
  rw [resetCore_pc, loadImage_vector_high image hwf, loadImage_vector_low image hwf]
  rfl

/-- An accessor has no value exactly while the core is Running (R118 to R120). -/
theorem hostQuery_eq_none_iff {q : HostQuery} {s : State} :
    hostQuery q s = none ↔ s.runState = .running := by
  by_cases h : s.runState = .running
  · simp [hostQuery, h]
  · cases q <;> simp [hostQuery, h]

/-- Settles O42: each clause is `resetCore_pc` with what the two vector bytes hold. -/
theorem resetStartsWhereTheVectorPoints : Obligations.ResetStartsWhereTheVectorPoints := by
  refine ⟨fun image s t u hwf hload hreset => ?_, fun lo hi s t u v hwf hlow hhigh hreset => ?_,
    fun u hreset => ?_, fun s t u v hlow hhigh hs ht => ?_⟩
  · obtain ⟨-, rfl⟩ := eq_loadImage_of_hostMove hload
    rw [eq_resetCore_of_hostMove hreset, resetCore_loadImage_pc image hwf]
  · obtain rfl := eq_write8_of_hostMove hlow
    obtain rfl := eq_write8_of_hostMove hhigh
    have hne : (0xFFFC : Word) ≠ 0xFFFD := by decide
    rw [eq_resetCore_of_hostMove hreset, resetCore_pc, concat16_toNat,
      State.read8_write8_same (State.write8_wf hwf _ _), State.read8_write8_other _ hne,
      State.read8_write8_same hwf]
  · rw [eq_resetCore_of_hostMove hreset]
    rfl
  · rw [eq_resetCore_of_hostMove hs, eq_resetCore_of_hostMove ht, resetCore_pc, resetCore_pc, hlow,
      hhigh]

/-- Settles O43: the move is `loadImage`, which changes memory alone. -/
theorem loadWritesTheImageThenTheVector : Obligations.LoadWritesTheImageThenTheVector := by
  intro image s hwf h hlen
  refine ⟨_, hostMove_load h hlen, loadImage_holdsImage hwf hlen, ?_⟩
  obtain ⟨m, e⟩ := loadImage_mem_only image s
  rw [e]
  exact ⟨rfl, rfl, rfl, rfl, rfl, rfl⟩

/-- Settles O44: the host has both moves, and the length check fails in each. -/
theorem tooLongImageIsRefused : Obligations.TooLongImageIsRefused := by
  intro image s h hlen
  have hrejected : ¬ wellFormedImage image = true :=
    fun hw => absurd (wellFormedImage_length hw) (Nat.not_le_of_gt hlen)
  constructor
  · rw [hostMove_eq_hostEffect (mv := .load image) h nofun, hostEffect, if_neg hrejected]
  · rw [hostMove_eq_hostEffect (mv := .loadAndRun image) h nofun, hostEffect, if_neg hrejected]

/-- Settles O45, from the table of moves and the answers of the accessors. -/
theorem hostMovesOnlyWhileTheCoreIsNotRunning :
    Obligations.HostMovesOnlyWhileTheCoreIsNotRunning := by
  refine ⟨fun mv s => hostMove_eq_hostNoMove_iff.trans hostHasMove_eq_false_iff,
    fun q s => hostQuery_eq_none_iff, fun s h => ?_,
    fun s a v h => hostMove_eq_hostEffect h nofun⟩
  simp [hostQuery, h]

/-- Settles O46: `load_and_run` is the three operations composed, and its PC is the vector's value after
the load. -/
theorem loadAndRunStartsTheProgram : Obligations.LoadAndRunStartsTheProgram := by
  refine ⟨fun image s t u v hload hreset hrun => ?_, fun image s hwf h hlen => ?_⟩
  · obtain ⟨hlen, rfl⟩ := eq_loadImage_of_hostMove hload
    obtain rfl := eq_resetCore_of_hostMove hreset
    rw [hostMove_loadAndRun (not_running_of_hostMove hload) hlen, eq_enterRun_of_hostMove hrun]
  · have hy : (loadImage image s).y = s.y := by
      obtain ⟨m, e⟩ := loadImage_mem_only image s
      rw [e]
    exact ⟨_, hostMove_loadAndRun h hlen, loadImage_holdsImage hwf hlen, rfl, rfl, hy, rfl,
      resetCore_loadImage_pc image hwf, rfl⟩

end Sys2Proof.Machine
